-- ==== Sys2Proof/Word.lean ====
section
/-! DEFINITION. The word types of the mfdedit CORE block. Every value of the block is unsigned
(spec/00_scope.md R11): a byte of the image store, and the 32-bit header and result words of the
command interface (spec/30_encoding.md R80). -/

namespace Sys2Proof

/-- One byte of the image store or of a payload (spec/10_state.md R25, spec/30_encoding.md R80).
Bit 0 is the least significant bit (spec/20_memory.md R53). -/
abbrev Byte := BitVec 8

/-- A command header or a result word: an abstract 32-bit number with no transport byte order
(spec/20_memory.md R54). -/
abbrev Word := BitVec 32

end Sys2Proof
end

