-- ==== Sys2Proof/Config.lean ====
section
/-! DEFINITION. The two open parameters of the block, `ACMAP` and `VB_CODES`, as types with the
condition the spec puts on them (spec/00_scope.md R8, R9; spec/92_eei_decisions.md "Open
parameters"). The values this hardware takes are `Config.chip` in Machine/Operands.lean. Both are
configuration, fixed for the life of the block, and no part of the state (spec/10_state.md R20). -/

namespace Sys2Proof

/-- One pair of the access-condition codec: the position of the direct copy of a bit and the
position of its inverted copy, both in the 32-bit access region (spec/00_scope.md R8, R16). -/
structure AcPair where
  direct   : Fin 32
  inverted : Fin 32
  deriving DecidableEq, Repr

/-- `ACMAP : slot (0..3) -> j (0..2) -> (d, n)` (spec/00_scope.md R8). -/
abbrev AcMap := Fin 4 → Fin 3 → AcPair

/-- `ACMAP` is well formed iff the 24 positions it names are pairwise distinct
(spec/00_scope.md R8; that each lies in 0..31 is carried by the type). -/
structure AcMap.WellFormed (m : AcMap) : Prop where
  /-- No direct position is an inverted position. -/
  direct_ne_inverted : ∀ k j k' j', (m k j).direct ≠ (m k' j').inverted
  /-- Two different pairs have different direct positions. -/
  direct_inj : ∀ k j k' j', (m k j).direct = (m k' j').direct → k = k' ∧ j = j'
  /-- Two different pairs have different inverted positions. -/
  inverted_inj : ∀ k j k' j', (m k j).inverted = (m k' j').inverted → k = k' ∧ j = j'

/-- The parameters of the block (spec/00_scope.md R8, R9). -/
structure Config where
  /-- Where each direct and inverted access bit stands. -/
  acmap   : AcMap
  /-- The set of 3-bit codes that designate a value block. -/
  vbCodes : List (BitVec 3)

end Sys2Proof
end

