-- ==== Sys2Proof/Syntax.lean ====
section
/-! DEFINITION. The 14 commands of the block, one constructor per row of spec/opcode_table.json
(spec/30_encoding.md R83). A constructor holds the header fields its row uses, at their header
widths (spec/30_encoding.md R82); the payload that comes with the header is no part of the
instruction: it stands in `State.payload` while the command runs. -/

namespace Sys2Proof

/-- The commands, in opcode order (spec/30_encoding.md R83). Operand order is that of the written
form (spec/30_encoding.md R91). -/
inductive Instr where
  /-- PARSE: load an image of `len` bytes (spec/43_cardimage.md R160). -/
  | parse     (len : BitVec 16)
  /-- SERIALIZE: return the image (spec/43_cardimage.md R175). -/
  | serialize
  /-- EDITNIB: replace one nibble of a block (spec/43_cardimage.md R165). -/
  | editnib   (sec : BitVec 6) (blk : BitVec 4) (nib : BitVec 5) (val : BitVec 4)
  /-- EDITACB: set one bit of one access condition (spec/43_cardimage.md R170). -/
  | editacb   (sec : BitVec 6) (blk : BitVec 4) (pos : BitVec 2) (bit : Bool)
  /-- RDBLK: read the 16 bytes of a block (spec/44_addressing.md R192). -/
  | rdblk     (sec : BitVec 6) (blk : BitVec 4)
  /-- RDAC: read the access condition of a block (spec/44_addressing.md R194). -/
  | rdac      (sec : BitVec 6) (blk : BitVec 4)
  /-- RDVBS: read the value-block status of a block (spec/44_addressing.md R196). -/
  | rdvbs     (sec : BitVec 6) (blk : BitVec 4)
  /-- RDCLASS: read the class of a block (spec/44_addressing.md R198). -/
  | rdclass   (sec : BitVec 6) (blk : BitVec 4)
  /-- RDROW: row number to sector, block and class; the row index is the `len` field
  (spec/44_addressing.md R199). -/
  | rdrow     (row : BitVec 16)
  /-- RDSTAT: read the status word (spec/44_addressing.md R201). -/
  | rdstat
  /-- ACDEC: decode one slot of a 4-byte region (spec/40_codec.md R114). -/
  | acdec     (slot : BitVec 2)
  /-- ACENC: encode one bit into a 4-byte region (spec/40_codec.md R116). -/
  | acenc     (slot : BitVec 2) (pos : BitVec 2) (bit : Bool)
  /-- VBCHK: validate a 16-byte block (spec/41_valueblock.md R131). -/
  | vbchk
  /-- BCC: exclusive or of `len` bytes (spec/42_checksum.md R141). -/
  | bcc       (len : BitVec 16)
  deriving DecidableEq, Repr

end Sys2Proof
end

