-- ==== Sys2Proof/WellFormed.lean ====
section
/-! DEFINITION. Which instructions a legal header can stand for. The field widths leave one value
that no legal header holds: `pos = 3` in EDITACB and ACENC (spec/30_encoding.md R82 "the value 3 is
reserved", R86). Legality of addresses is a matter of the state, not of the instruction
(spec/10_state.md R27). -/

namespace Sys2Proof

/-- The check as a Bool: the reserved `pos` value is refused, every other operand value is an
encodable one (spec/30_encoding.md R82, R86). -/
def Instr.wf : Instr → Bool
  | .editacb _ _ pos _ => pos != 3#2
  | .acenc _ pos _     => pos != 3#2
  | .parse _           => true
  | .serialize         => true
  | .editnib _ _ _ _   => true
  | .rdblk _ _         => true
  | .rdac _ _          => true
  | .rdvbs _ _         => true
  | .rdclass _ _       => true
  | .rdrow _           => true
  | .rdstat            => true
  | .acdec _           => true
  | .vbchk             => true
  | .bcc _             => true

/-- A well-formed instruction: one that some legal header selects. -/
abbrev Instr.WellFormed (i : Instr) : Prop := i.wf = true

end Sys2Proof
end

