-- ==== Sys2Proof/Decode.lean ====
section
/-! DEFINITION. The command header: its fields and the opcode map (spec/30_encoding.md R81 to R86).
Decoding is total: every 32-bit header selects exactly one command or is illegal, and an illegal one
is rejected by name. After the decoder, the encoder, written from the same format tables, and the
payload length a header fixes (R85). -/

namespace Sys2Proof

/-- Why a header selects no command (spec/30_encoding.md R86). -/
inductive IllegalHeader where
  /-- `OP` is 0x0 or 0xF. -/
  | opcode
  /-- A bit is 1 that the row of the command requires to be 0. -/
  | mustBeZero
  /-- EDITACB or ACENC with `pos = 3`. -/
  | reservedPos
  deriving DecidableEq, Repr

namespace Header

/-- `OP`, bits 31:28 (spec/30_encoding.md R81). -/
def op   (h : Word) : BitVec 4  := h.extractLsb' 28 4
/-- `sec`, bits 27:22 of format A. -/
def sec  (h : Word) : BitVec 6  := h.extractLsb' 22 6
/-- `blk`, bits 21:18 of format A. -/
def blk  (h : Word) : BitVec 4  := h.extractLsb' 18 4
/-- `nib`, bits 17:13 of format A. -/
def nib  (h : Word) : BitVec 5  := h.extractLsb' 13 5
/-- `val`, bits 12:9 of format A. -/
def val  (h : Word) : BitVec 4  := h.extractLsb' 9 4
/-- `pos`, bits 8:7 of formats A and S. -/
def pos  (h : Word) : BitVec 2  := h.extractLsb' 7 2
/-- `bit`, bit 6 of formats A and S. -/
def bit  (h : Word) : Bool      := h.getLsbD 6
/-- `slot`, bits 5:4 of format S. -/
def slot (h : Word) : BitVec 2  := h.extractLsb' 4 2
/-- `len`, bits 15:0 of format L. -/
def len  (h : Word) : BitVec 16 := h.extractLsb' 0 16

/-- Format N: opcode and zeros (spec/30_encoding.md R81). -/
def formatN (o : BitVec 4) : Word := o ++ 0#28

/-- Format A: address operands (spec/30_encoding.md R81). -/
def formatA (o : BitVec 4) (sec : BitVec 6) (blk : BitVec 4) (nib : BitVec 5) (val : BitVec 4)
    (pos : BitVec 2) (bit : Bool) : Word :=
  o ++ sec ++ blk ++ nib ++ val ++ pos ++ BitVec.ofBool bit ++ 0#6

/-- Format L: length or index operand (spec/30_encoding.md R81). -/
def formatL (o : BitVec 4) (len : BitVec 16) : Word := o ++ 0#12 ++ len

/-- Format S: slot operands (spec/30_encoding.md R81). -/
def formatS (o : BitVec 4) (pos : BitVec 2) (bit : Bool) (slot : BitVec 2) : Word :=
  o ++ 0#19 ++ pos ++ BitVec.ofBool bit ++ slot ++ 0#4

end Header

/-- Take `i` when the header agrees with the row's match and mask (spec/30_encoding.md R84). -/
def selected (h mask pattern : Word) (i : Instr) : Except IllegalHeader Instr :=
  if h &&& mask = pattern then .ok i else .error .mustBeZero

/-- As `selected`, for the two rows with the extra condition `pos != 3`
(spec/30_encoding.md R84). -/
def selectedPos (h mask pattern : Word) (i : Instr) : Except IllegalHeader Instr :=
  if h &&& mask = pattern then
    if Header.pos h = 3#2 then .error .reservedPos else .ok i
  else .error .mustBeZero

open Header in
/-- The command a header selects, by the match and mask table of spec/30_encoding.md R84. The
opcode picks the row, so no two rows can match one header. -/
def decode (h : Word) : Except IllegalHeader Instr :=
  match op h with
  | 0x0#4 => .error .opcode
  | 0x1#4 => selected h 0xFFFF0000#32 0x10000000#32 (.parse (len h))
  | 0x2#4 => selected h 0xFFFFFFFF#32 0x20000000#32 .serialize
  | 0x3#4 => selected h 0xF00001FF#32 0x30000000#32 (.editnib (sec h) (blk h) (nib h) (val h))
  | 0x4#4 => selectedPos h 0xF003FE3F#32 0x40000000#32 (.editacb (sec h) (blk h) (pos h) (bit h))
  | 0x5#4 => selected h 0xF003FFFF#32 0x50000000#32 (.rdblk (sec h) (blk h))
  | 0x6#4 => selected h 0xF003FFFF#32 0x60000000#32 (.rdac (sec h) (blk h))
  | 0x7#4 => selected h 0xF003FFFF#32 0x70000000#32 (.rdvbs (sec h) (blk h))
  | 0x8#4 => selected h 0xF003FFFF#32 0x80000000#32 (.rdclass (sec h) (blk h))
  | 0x9#4 => selected h 0xFFFF0000#32 0x90000000#32 (.rdrow (len h))
  | 0xA#4 => selected h 0xFFFFFFFF#32 0xA0000000#32 .rdstat
  | 0xB#4 => selected h 0xFFFFFFCF#32 0xB0000000#32 (.acdec (slot h))
  | 0xC#4 => selectedPos h 0xFFFFFE0F#32 0xC0000000#32 (.acenc (slot h) (pos h) (bit h))
  | 0xD#4 => selected h 0xFFFFFFFF#32 0xD0000000#32 .vbchk
  | 0xE#4 => selected h 0xFFFF0000#32 0xE0000000#32 (.bcc (len h))
  | _     => .error .opcode

open Header in
/-- The header of an instruction, by the format tables of spec/30_encoding.md R81 and the opcode
map R83; the fields a command does not use are 0. -/
def encode : Instr → Word
  | .parse l             => formatL 0x1#4 l
  | .serialize           => formatN 0x2#4
  | .editnib s b n v     => formatA 0x3#4 s b n v 0#2 false
  | .editacb s b p v     => formatA 0x4#4 s b 0#5 0#4 p v
  | .rdblk s b           => formatA 0x5#4 s b 0#5 0#4 0#2 false
  | .rdac s b            => formatA 0x6#4 s b 0#5 0#4 0#2 false
  | .rdvbs s b           => formatA 0x7#4 s b 0#5 0#4 0#2 false
  | .rdclass s b         => formatA 0x8#4 s b 0#5 0#4 0#2 false
  | .rdrow n             => formatL 0x9#4 n
  | .rdstat              => formatN 0xA#4
  | .acdec k             => formatS 0xB#4 0#2 false k
  | .acenc k p v         => formatS 0xC#4 p v k
  | .vbchk               => formatN 0xD#4
  | .bcc l               => formatL 0xE#4 l

/-- `paylen(H)`, the payload length a legal header fixes (spec/30_encoding.md R85). -/
def Instr.paylen : Instr → Nat
  | .parse len       => len.toNat
  | .serialize       => 0
  | .editnib _ _ _ _ => 0
  | .editacb _ _ _ _ => 0
  | .rdblk _ _       => 0
  | .rdac _ _        => 0
  | .rdvbs _ _       => 0
  | .rdclass _ _     => 0
  | .rdrow _         => 0
  | .rdstat          => 0
  | .acdec _         => 4
  | .acenc _ _ _     => 4
  | .vbchk           => 16
  | .bcc len         => len.toNat

/-- The header an opcode-table word of `nbits` bits stands for: the bits above `nbits` are 0. A
header is one 32-bit number and has no byte order to lay out (spec/20_memory.md R54; log
entry 12). -/
def headerOfTableWord (nbits w : Nat) : Word := BitVec.ofNat 32 (w % 2 ^ nbits)

/-- The instruction the decoder reads from an opcode-table word. -/
def decodeTableWord (nbits w : Nat) : Option Instr :=
  match decode (headerOfTableWord nbits w) with
  | .ok i    => some i
  | .error _ => none

end Sys2Proof
end

