-- ==== Sys2Proof/Machine/State.lean ====
section
/-! DEFINITION. The state of the block as plain data: `LEN`, `DIRTY`, `IMG`, `ACT`, `VBS`
(spec/10_state.md R20), and the command interface (spec/30_encoding.md R80): the payload of the
command being executed, the inputs the host has still to send, and the responses it has received. -/

namespace Sys2Proof.Machine

/-- An access-condition value: a 3-bit code, or `Corrupt`, which carries no bits
(spec/00_scope.md R14). -/
inductive AccessCond where
  | valid (c : BitVec 3)
  | corrupt
  deriving DecidableEq, Repr

/-- An entry of `VBS` (spec/10_state.md R32). -/
inductive VbStatus where
  | ok
  | warning
  deriving DecidableEq, Repr

/-- The class of a block (spec/10_state.md R29). -/
inductive BlockClass where
  | data
  | manufacturer
  | sectorTrailer
  deriving DecidableEq, Repr

/-- The six error statuses (spec/30_encoding.md R88). Status `OK` is not among them. -/
inductive ErrorStatus where
  | invalidSize
  | notLoaded
  | address
  | bccProtected
  | illegal
  | frame
  deriving DecidableEq, Repr

/-- A response: a 4-bit status, a 32-bit result and a payload (spec/30_encoding.md R80). -/
structure Response where
  status  : BitVec 4
  result  : Word
  payload : List Byte
  deriving DecidableEq, Repr

/-- What the host does to the block: send a command, that is a header and a payload
(spec/30_encoding.md R80), or apply `rst` (spec/70_reset_and_hazards.md R240). -/
inductive HostInput where
  | command (header : Word) (payload : List Byte)
  | reset
  deriving DecidableEq, Repr

/-- The image store as a list of address and byte pairs, addresses strictly rising; an address not
listed holds no value (spec/10_state.md R25). -/
abbrev Memory := List Host.Cell

/-- The four entries `ACT[s][0..3]` of one sector (spec/10_state.md R30). -/
abbrev AcRow := Vector AccessCond 4

/-- The state of the block and of its command interface. -/
structure State where
  /-- `LEN`: length of the image now held; 0 when none is (spec/10_state.md R21). -/
  len     : BitVec 13
  /-- `DIRTY`: the image holds edits not yet serialized (spec/10_state.md R22). -/
  dirty   : Bool
  /-- `IMG`: the image store (spec/10_state.md R25). -/
  img     : Memory
  /-- `ACT`: row `s` holds the four entries of sector `s`; a sector with no row holds no value
  (spec/10_state.md R30). -/
  act     : List AcRow
  /-- `VBS`: entry `n` is that of flat block `n`; a block with no entry holds no value
  (spec/10_state.md R32). -/
  vbs     : List VbStatus
  /-- The payload of the command being executed; empty when the block is idle
  (spec/30_encoding.md R80). The model's field; DESIGN CHOICE (log entry 8). -/
  payload : List Byte
  /-- What the host has still to send, next first (spec/30_encoding.md R80, R90). The model's
  field; DESIGN CHOICE (log entry 4). -/
  inbox   : List HostInput
  /-- The responses the host has received, oldest first (spec/30_encoding.md R80). The model's
  field; DESIGN CHOICE (log entry 7). -/
  outbox  : List Response
  deriving DecidableEq, Repr

/-- Why a run stops with a fault. -/
inductive Fault where
  /-- Raised by a command that would read an element of `IMG`, `ACT` or `VBS` that holds no value
  (spec/10_state.md R25, R30, R32, R40). DESIGN CHOICE (log entry 3). SAFE: the spec gives such an element no value and has no
  command read one; the stop lets no proof rest on a value. No state with the invariant
  `State.Coherent` (Safety.lean) reaches it. -/
  | noValue
  deriving DecidableEq, Repr

/-- Why an instruction is given no meaning. -/
inductive Refusal where
  /-- Raised by an arm of `exec` whose instruction has no meaning yet. SAFE: the run stops. No arm
  raises it: all 14 commands have their meaning. -/
  | notModelled (mnemonic : String)
  deriving DecidableEq, Repr

/-- The machine right after reset (spec/10_state.md R40, spec/70_reset_and_hazards.md R242): not
loaded, clean, every element of `IMG`, `ACT` and `VBS` without a value, and nothing on the
interface. -/
def State.reset : State :=
  { len := 0#13, dirty := false, img := [], act := [], vbs := [], payload := [], inbox := [],
    outbox := [] }

end Sys2Proof.Machine
end

