-- ==== Sys2Proof/Machine/Operands.lean ====
section
/-! DEFINITION. What the operands of a command stand for: the geometry derived from `LEN`
(spec/10_state.md R26 to R29), bit positions of an access region (spec/20_memory.md R57), nibble
positions of a block (R56), the position table this hardware takes (spec/40_codec.md R111), and the
two pure value computations of the block, the pair encoder (R115) and the checksum
(spec/42_checksum.md R140). -/

namespace Sys2Proof.Machine

/-! ### Geometry (spec/10_state.md R26) -/

/-- The three legal image lengths (spec/00_scope.md R7). -/
def legalSize (len : Nat) : Bool := len == 320 || len == 1024 || len == 4096

/-- `nsec(LEN)`, the number of sectors; 0 when no image is held (spec/10_state.md R26, R36), and at
a value `LEN` never has (DESIGN CHOICE, log entry 10). -/
def nsec (len : Nat) : Nat :=
  if len = 320 then 5 else if len = 1024 then 16 else if len = 4096 then 40 else 0

/-- `nblk(s)`, the number of blocks of sector `s`. -/
def nblk (s : Nat) : Nat := if s < 32 then 4 else 16

/-- `first(s)`, the flat block number of the first block of sector `s`. -/
def first (s : Nat) : Nat := if s < 32 then 4 * s else 128 + 16 * (s - 32)

/-- `flat(s,b)`, the flat block number of block `b` of sector `s`. -/
def flat (s b : Nat) : Nat := first s + b

/-- `off(s,b)`, the byte offset of block `b` of sector `s` in `IMG`. -/
def off (s b : Nat) : Nat := 16 * flat s b

/-- `nblocks(LEN)`, the number of blocks. -/
def nblocks (len : Nat) : Nat := len / 16

/-- `addr(n)`, the sector and block of flat block number `n`. -/
def addr (n : Nat) : Nat × Nat :=
  if n < 128 then (n / 4, n % 4) else (32 + (n - 128) / 16, (n - 128) % 16)

/-- `tb(s)`, the index of the trailer in its sector. -/
def tb (s : Nat) : Nat := nblk s - 1

/-- Where the access region of the trailer of sector `s` starts (spec/10_state.md R38). -/
def accessOff (s : Nat) : Nat := off s (tb s) + 6

/-- `slot_of(s,b)` (spec/10_state.md R28); a slot number for every legal `(s,b)`. -/
def slotOf (s b : Nat) : Fin 4 := if nblk s = 4 then Fin.ofNat 4 b else Fin.ofNat 4 (b / 5)

/-- `class(s,b)`, the manufacturer test first (spec/10_state.md R29). -/
def blockClass (s b : Nat) : BlockClass :=
  if s = 0 ∧ b = 0 then .manufacturer
  else if b = tb s then .sectorTrailer
  else .data

/-! ### Nibbles of a block (spec/20_memory.md R56) -/

/-- The address of the byte that holds nibble `nib` of block `(s,b)` (spec/43_cardimage.md R165). -/
def nibOff (s b nib : Nat) : Nat := off s b + nib / 2

/-- A byte with one nibble replaced: an even index is the high nibble, an odd one the low nibble
(spec/43_cardimage.md R165). -/
def setNibble (old : Byte) (nib : Nat) (val : BitVec 4) : Byte :=
  if nib % 2 = 0 then (val.setWidth 8 <<< 4) ||| (old &&& 0x0f#8)
  else (old &&& 0xf0#8) ||| val.setWidth 8

/-- The nibble is one of the two of the BCC byte (spec/43_cardimage.md R166). -/
def isBccNibble (s b nib : Nat) : Bool := s == 0 && b == 0 && (nib == 8 || nib == 9)

/-- The nibble is one of the UID (spec/43_cardimage.md R165). -/
def isUidNibble (s b nib : Nat) : Bool := s == 0 && b == 0 && nib ≤ 7

/-! ### Bits of an access region (spec/20_memory.md R57) -/

/-- `getbit(A, p) = A[p div 8]{p mod 8}`. -/
def getbit (A : List Byte) (p : Fin 32) : Bool := (A.getD (p.val / 8) 0#8).getLsbD (p.val % 8)

/-- A byte with bit `t` made `v`. -/
def setByteBit (x : Byte) (t : Nat) (v : Bool) : Byte :=
  if v then x ||| (1#8 <<< t) else x &&& ~~~(1#8 <<< t)

/-- `setbit(A, p, v)`: `A` with that one bit made `v`. -/
def setbit (A : List Byte) (p : Fin 32) (v : Bool) : List Byte :=
  A.set (p.val / 8) (setByteBit (A.getD (p.val / 8) 0#8) (p.val % 8) v)

/-- The bit a `pos` operand selects: 0 is C1, 1 is C2, 2 is C3; the value 3 is reserved
(spec/30_encoding.md R82, spec/00_scope.md R14). -/
def posOf (pos : BitVec 2) : Option (Fin 3) :=
  if h : pos.toNat < 3 then some ⟨pos.toNat, h⟩ else none

/-- `acenc(A, k, j, v)`: the bit into its direct position, its complement into the paired inverted
position, every other bit untouched (spec/40_codec.md R115). -/
def acenc (m : AcMap) (A : List Byte) (k : Fin 4) (j : Fin 3) (v : Bool) : List Byte :=
  setbit (setbit A (m k j).direct v) (m k j).inverted (!v)

/-! ### The checksum -/

/-- `bcc(X)`: the running exclusive or of all bytes, from 0 (spec/42_checksum.md R140). -/
def bcc (X : List Byte) : Byte := X.foldl (fun acc x => acc ^^^ x) 0#8

/-! ### The parameters this hardware takes -/

/-- The default `ACMAP`: `ACMAP(k)(0) = (12+k, k)`, `ACMAP(k)(1) = (16+k, 4+k)`,
`ACMAP(k)(2) = (20+k, 8+k)` (spec/40_codec.md R111). PRESUMED (log entry 1): the spec supplies the
table from general knowledge of the card family. -/
def defaultAcmap : AcMap := fun k j =>
  { direct := Fin.ofNat 32 (12 + 4 * j.val + k.val), inverted := Fin.ofNat 32 (4 * j.val + k.val) }

/-- The value of `VB_CODES` this hardware takes, `{001, 101, 110}` (spec/00_scope.md R9).
DESIGN CHOICE of the spec (log entry 2). -/
def defaultVbCodes : List (BitVec 3) := [0b001#3, 0b101#3, 0b110#3]

/-- The parameters of this hardware (spec/00_scope.md R8, R9). -/
def chip : Config := { acmap := defaultAcmap, vbCodes := defaultVbCodes }

end Sys2Proof.Machine
end

