-- ==== Sys2Proof/Machine/Flags.lean ====
section
/-! DEFINITION. The flags of the block and the codes in which the host reads them. The flags are
`DIRTY`, the Corrupt mark of an `ACT` entry and the Warning mark of a `VBS` entry
(spec/10_state.md R35); there are no others. -/

namespace Sys2Proof.Machine

/-! ### The Corrupt mark -/

/-- `acdec(A, k)`: valid only if each inverted bit is the exact complement of its direct bit; C1 is
the most significant bit of the code (spec/40_codec.md R112, spec/00_scope.md R14). -/
def acdec (m : AcMap) (A : List Byte) (k : Fin 4) : AccessCond :=
  if getbit A (m k 0).direct = !getbit A (m k 0).inverted ∧
     getbit A (m k 1).direct = !getbit A (m k 1).inverted ∧
     getbit A (m k 2).direct = !getbit A (m k 2).inverted then
    .valid (BitVec.ofBool (getbit A (m k 0).direct) ++ BitVec.ofBool (getbit A (m k 1).direct) ++
      BitVec.ofBool (getbit A (m k 2).direct))
  else .corrupt

/-! ### The Warning mark -/

/-- Byte `i` of a block given as a list of 16 bytes. -/
def byteAt (B : List Byte) (i : Nat) : Byte := B.getD i 0#8

/-- `w1`: value is not the complement of the complemented value (spec/41_valueblock.md R130). -/
def warnComplement (B : List Byte) : Bool :=
  !(List.range 4).all fun i => byteAt B i == ~~~(byteAt B (4 + i))

/-- `w2`: value is not the repeated value. -/
def warnRepeat (B : List Byte) : Bool :=
  !(List.range 4).all fun i => byteAt B i == byteAt B (8 + i)

/-- `w3`: address is not the complement of the complemented address. -/
def warnAddrComplement (B : List Byte) : Bool := byteAt B 12 != ~~~(byteAt B 13)

/-- `w4`: address is not the repeated address. -/
def warnAddrRepeat (B : List Byte) : Bool := byteAt B 12 != byteAt B 14

/-- `w5`: address is not the complement of the repeated complemented address. -/
def warnAddrComplementRepeat (B : List Byte) : Bool := byteAt B 12 != ~~~(byteAt B 15)

/-- `vbcheck(B)`: Warning if any of the five tests fails (spec/41_valueblock.md R130). -/
def vbcheck (B : List Byte) : VbStatus :=
  if warnComplement B || warnRepeat B || warnAddrComplement B || warnAddrRepeat B ||
      warnAddrComplementRepeat B then .warning else .ok

/-! ### Codes (spec/30_encoding.md R88, R89) -/

/-- The 4-bit status code of an error response (spec/30_encoding.md R88). -/
def ErrorStatus.code : ErrorStatus → BitVec 4
  | .invalidSize  => 1#4
  | .notLoaded    => 2#4
  | .address      => 3#4
  | .bccProtected => 4#4
  | .illegal      => 5#4
  | .frame        => 6#4

/-- The status code of `OK` (spec/30_encoding.md R88). -/
def okCode : BitVec 4 := 0#4

/-- `ac4`: a valid condition is its code, Corrupt is 0b1000 (spec/30_encoding.md R89). -/
def ac4 : AccessCond → BitVec 4
  | .valid c => c.setWidth 4
  | .corrupt => 0b1000#4

/-- The result bit of a value-block status: 0 OK, 1 Warning (spec/10_state.md R32). -/
def vbCode : VbStatus → Word
  | .ok      => 0#32
  | .warning => 1#32

/-- The class codes (spec/30_encoding.md R89). -/
def classCode : BlockClass → Word
  | .data          => 0#32
  | .manufacturer  => 1#32
  | .sectorTrailer => 2#32

/-- The result of RDROW for the block `(s,b)` (spec/44_addressing.md R199). -/
def rowWord (s b : Nat) : Word :=
  (BitVec.ofNat 32 s <<< 6) ||| (BitVec.ofNat 32 b <<< 2) ||| classCode (blockClass s b)

/-- The status word: `LEN` in bits 12:0, `DIRTY` in 13, `NSEC` in 19:14, `NBLOCKS` in 28:20
(spec/10_state.md R36, spec/44_addressing.md R201). -/
def statusWord (len : BitVec 13) (dirty : Bool) : Word :=
  len.setWidth 32 ||| ((BitVec.ofBool dirty).setWidth 32 <<< 13) |||
    (BitVec.ofNat 32 (nsec len.toNat) <<< 14) ||| (BitVec.ofNat 32 (len.toNat / 16) <<< 20)

end Sys2Proof.Machine
end

