-- ==== Sys2Proof/Machine/Ops.lean ====
section
/-! DEFINITION. The shared operations of the commands: the image store (spec/00_scope.md R13,
spec/20_memory.md R50), the response and the error response (R13, spec/60_exceptions.md R219), the
checks made before a command (spec/60_exceptions.md R218), and the rebuild of the two derived tables
(spec/43_cardimage.md R152). -/

namespace Sys2Proof.Machine

/-- An outcome of the block. -/
abbrev Out := Host.Outcome State Fault Refusal

/-! ### The image store -/

/-- What an address not listed in a memory reads as: no value (spec/10_state.md R25, R40; log
entry 3). -/
def Memory.unlisted : Option Byte := none

/-- The canonical form: addresses strictly rising, and no entry equal to what an unlisted address
reads as. -/
def Memory.wf : Memory → Bool
  | []                   => true
  | [(_, b)]             => some b != Memory.unlisted
  | (a, b) :: (c, d) :: m => some b != Memory.unlisted && decide (a < c) && Memory.wf ((c, d) :: m)

/-- The value of `IMG[a]`, if it holds one. -/
def Memory.read : Memory → Nat → Option Byte
  | [], _          => Memory.unlisted
  | (x, b) :: m, a => if x = a then some b else Memory.read m a

/-- `IMG[a] <- b`, in canonical form. A written element always holds a value, so a write never
removes an entry. -/
def Memory.write : Memory → Nat → Byte → Memory
  | [], a, b => [(a, b)]
  | (x, c) :: m, a, b =>
    if a < x then (a, b) :: (x, c) :: m
    else if a = x then (a, b) :: m
    else (x, c) :: Memory.write m a b

/-- `MemRead(a, n)`: the bytes `IMG[a] .. IMG[a+n-1]` in order, if each holds a value
(spec/00_scope.md R13). -/
def memRead (m : Memory) : Nat → Nat → Option (List Byte)
  | _, 0     => some []
  | a, n + 1 =>
    match Memory.read m a, memRead m (a + 1) n with
    | some b, some bs => some (b :: bs)
    | _, _            => none

/-- `MemWrite(a, n, X)` with `n = |X|`: `IMG[a+i] <- X[i]` (spec/00_scope.md R13). -/
def memWrite (m : Memory) : Nat → List Byte → Memory
  | _, []      => m
  | a, b :: bs => memWrite (Memory.write m a b) (a + 1) bs

/-- The store that holds the bytes of a dump from address `a` on and no other value: what
`MemWrite(0, len, P)` leaves when elements at and beyond `len` hold no value
(spec/43_cardimage.md R160). -/
def imageOf : Nat → List Byte → Memory
  | _, []      => []
  | a, b :: bs => (a, b) :: imageOf (a + 1) bs

/-! ### Responses -/

/-- The response ends the command: the host receives it, and the payload is consumed
(spec/30_encoding.md R80). -/
def answer (status : BitVec 4) (result : Word) (q : List Byte) (s : State) : State :=
  { s with payload := [], outbox := s.outbox ++ [{ status := status, result := result, payload := q }] }

/-- `respond(r, P)`: the command ends with status `OK` (spec/00_scope.md R13). -/
def respond (result : Word) (q : List Byte) (s : State) : Out := .next (answer okCode result q s)

/-- `raise E`, the block's only exception: an error response with the status code of `E`, result 0
and empty payload. No state is saved and none is written, there is no vector and no handler, and
nothing to return from: the block is at once ready for the next command (spec/00_scope.md R13,
spec/60_exceptions.md R219, R220). -/
def raise (e : ErrorStatus) (s : State) : Out := .next (answer e.code 0#32 [] s)

/-- Go on with a value the spec says is there; a run that would need a value where there is none
stops (`Fault.noValue`). -/
def needValue {α : Type} (v : Option α) (k : α → Out) : Out :=
  match v with
  | some x => k x
  | none   => .fault .noValue

/-! ### Checks made before a command (spec/60_exceptions.md R218) -/

/-- The framing check: a payload of another length than the header fixes is `ERR_FRAME`
(spec/30_encoding.md R87). -/
def checkFrame (i : Instr) (s : State) (k : Out) : Out :=
  if s.payload.length = i.paylen then k else raise .frame s

/-- `ERR_NOT_LOADED` while no image is held (spec/60_exceptions.md R215). -/
def checkLoaded (s : State) (k : Out) : Out :=
  if s.len = 0#13 then raise .notLoaded s else k

/-- `check_image(sec, blk)` (spec/43_cardimage.md R151). -/
def checkImage (sec blk : Nat) (s : State) (k : Out) : Out :=
  checkLoaded s <|
    if nsec s.len.toNat ≤ sec then raise .address s
    else if nblk sec ≤ blk then raise .address s
    else k

/-- A header with `pos = 3` is illegal (spec/30_encoding.md R86). The decoder rejects it, so no
command reaches the second case (DESIGN CHOICE, log entry 9). -/
def checkPos (pos : BitVec 2) (s : State) (k : Fin 3 → Out) : Out :=
  match posOf pos with
  | some j => k j
  | none   => raise .illegal s

/-! ### The derived tables (spec/43_cardimage.md R152) -/

/-- All values of a list of optional values, if each is there. -/
def allSome {α : Type} : List (Option α) → Option (List α)
  | []          => some []
  | none :: _   => none
  | some x :: l =>
    match allSome l with
    | some xs => some (x :: xs)
    | none    => none

/-- The access region of the trailer of sector `s` (spec/10_state.md R38). -/
def regionOf (img : Memory) (s : Nat) : Option (List Byte) := memRead img (accessOff s) 4

/-- The four entries of a sector, decoded from its access region. -/
def acRow (m : AcMap) (A : List Byte) : AcRow :=
  #v[acdec m A 0, acdec m A 1, acdec m A 2, acdec m A 3]

/-- The first loop of the rebuild: `ACT` from `IMG` and `LEN`. -/
def actTable (c : Config) (len : Nat) (img : Memory) : Option (List AcRow) :=
  allSome ((List.range (nsec len)).map fun s => (regionOf img s).map (acRow c.acmap))

/-- `AC(s,b) = ACT[s][slot_of(s,b)]`, if the entry holds a value (spec/10_state.md R31). -/
def acOf (act : List AcRow) (s b : Nat) : Option AccessCond :=
  act[s]?.map fun r => r.get (slotOf s b)

/-- `status(s,b)`: the manufacturer test first, then the trailer test, then the condition
(spec/43_cardimage.md R154). -/
def blockStatus (c : Config) (img : Memory) (act : List AcRow) (s b : Nat) : Option VbStatus :=
  if s = 0 ∧ b = 0 then some .ok
  else if b = tb s then some .ok
  else
    match acOf act s b with
    | none              => none
    | some .corrupt     => some .ok
    | some (.valid ac)  =>
      if ac ∈ c.vbCodes then (memRead img (off s b) 16).map vbcheck else some .ok

/-- The second loop of the rebuild: `VBS` from `IMG`, `LEN` and the `ACT` just written. -/
def vbsTable (c : Config) (len : Nat) (img : Memory) (act : List AcRow) : Option (List VbStatus) :=
  allSome ((List.range (nblocks len)).map fun n => blockStatus c img act (addr n).1 (addr n).2)

/-- What the rebuild computes: both tables, the first loop before the second. -/
def tables (c : Config) (len : Nat) (img : Memory) : Option (List AcRow × List VbStatus) :=
  match actTable c len img with
  | none     => none
  | some act => (vbsTable c len img act).map fun vbs => (act, vbs)

/-- `Rebuild()`: both tables written anew from `IMG` and `LEN` (spec/43_cardimage.md R152). -/
def rebuild (c : Config) (s : State) : Option State :=
  (tables c s.len.toNat s.img).map fun t => { s with act := t.1, vbs := t.2 }

/-! ### The writes of the state-changing commands -/

/-- A dump becomes the image: `LEN`, `IMG` and `DIRTY` written, both tables rebuilt
(spec/43_cardimage.md R160). -/
def loadImage (dump : List Byte) (s : State) : Option State :=
  rebuild chip
    { s with len := BitVec.ofNat 13 dump.length, img := imageOf 0 dump, dirty := false }

/-- An edited store becomes the image: `DIRTY` set, both tables rebuilt
(spec/43_cardimage.md R165, R170). -/
def commitEdit (img : Memory) (s : State) : Option State :=
  rebuild chip { s with img := img, dirty := true }

/-- `IMG[4] <- bcc(MemRead(0, 4))` (spec/42_checksum.md R142). -/
def updateBcc (img : Memory) : Option Memory :=
  (memRead img 0 4).map fun uid => Memory.write img 4 (bcc uid)

/-- The store after a nibble edit: the nibble, and the BCC byte when the nibble is one of the UID
(spec/43_cardimage.md R165). -/
def nibbleEdit (img : Memory) (sec blk nib : Nat) (val : BitVec 4) : Option Memory :=
  match Memory.read img (nibOff sec blk nib) with
  | none     => none
  | some old =>
    if isUidNibble sec blk nib then
      updateBcc (Memory.write img (nibOff sec blk nib) (setNibble old nib val))
    else some (Memory.write img (nibOff sec blk nib) (setNibble old nib val))

/-- The store after an access-bit edit: the pair rewritten in the region of the sector's trailer
(spec/43_cardimage.md R170). -/
def accessBitEdit (m : AcMap) (img : Memory) (sec blk : Nat) (j : Fin 3) (bit : Bool) :
    Option Memory :=
  (regionOf img sec).map fun A => memWrite img (accessOff sec) (acenc m A (slotOf sec blk) j bit)

end Sys2Proof.Machine
end

