-- ==== Sys2Proof/Machine/Addressing.lean ====
section
/-! DEFINITION. The addressing map and the read commands (spec/44_addressing.md). None of them
writes any state. -/

namespace Sys2Proof.Machine

/-- RDBLK: the 16 bytes of the block (spec/44_addressing.md R192). -/
def execRdblk (sec : BitVec 6) (blk : BitVec 4) (s : State) : Out :=
  checkFrame (.rdblk sec blk) s <| checkImage sec.toNat blk.toNat s <|
    needValue (memRead s.img (off sec.toNat blk.toNat) 16) fun q => respond 0#32 q s

/-- RDAC: `ac4(AC(sec, blk))` (spec/44_addressing.md R194). -/
def execRdac (sec : BitVec 6) (blk : BitVec 4) (s : State) : Out :=
  checkFrame (.rdac sec blk) s <| checkImage sec.toNat blk.toNat s <|
    needValue (acOf s.act sec.toNat blk.toNat) fun ac => respond ((ac4 ac).setWidth 32) [] s

/-- RDVBS: 1 if `VBS[flat(sec, blk)]` is Warning, else 0 (spec/44_addressing.md R196). -/
def execRdvbs (sec : BitVec 6) (blk : BitVec 4) (s : State) : Out :=
  checkFrame (.rdvbs sec blk) s <| checkImage sec.toNat blk.toNat s <|
    needValue (s.vbs[flat sec.toNat blk.toNat]?) fun w => respond (vbCode w) [] s

/-- RDCLASS: the class code of the block (spec/44_addressing.md R198). -/
def execRdclass (sec : BitVec 6) (blk : BitVec 4) (s : State) : Out :=
  checkFrame (.rdclass sec blk) s <| checkImage sec.toNat blk.toNat s <|
    respond (classCode (blockClass sec.toNat blk.toNat)) [] s

/-- RDROW: sector, block and class of a row (spec/44_addressing.md R199). -/
def execRdrow (row : BitVec 16) (s : State) : Out :=
  checkFrame (.rdrow row) s <| checkLoaded s <|
    if nblocks s.len.toNat ≤ row.toNat then raise .address s
    else respond (rowWord (addr row.toNat).1 (addr row.toNat).2) [] s

/-- RDSTAT: the status word; legal when no image is loaded (spec/44_addressing.md R201). -/
def execRdstat (s : State) : Out :=
  checkFrame .rdstat s <| respond (statusWord s.len s.dirty) [] s

end Sys2Proof.Machine
end

