-- ==== Sys2Proof/Machine/CardImage.lean ====
section
/-! DEFINITION. The four commands of the card image: PARSE, EDITNIB, EDITACB, SERIALIZE
(spec/43_cardimage.md). Every error stands before the first write (spec/00_scope.md R13). -/

namespace Sys2Proof.Machine

/-- PARSE: the framing check, then the size check, then the image replaced whole
(spec/43_cardimage.md R160). -/
def execParse (len : BitVec 16) (s : State) : Out :=
  checkFrame (.parse len) s <|
    if legalSize len.toNat then
      needValue (loadImage s.payload s) fun t => respond (len.setWidth 32) [] t
    else raise .invalidSize s

/-- SERIALIZE: the `LEN` bytes of the image, and `DIRTY` cleared (spec/43_cardimage.md R175). -/
def execSerialize (s : State) : Out :=
  checkFrame .serialize s <| checkLoaded s <|
    needValue (memRead s.img 0 s.len.toNat) fun q =>
      respond (s.len.setWidth 32) q { s with dirty := false }

/-- EDITNIB: the checks, the protected BCC byte, the nibble with the BCC update, `DIRTY`, the
rebuild (spec/43_cardimage.md R165). -/
def execEditnib (sec : BitVec 6) (blk : BitVec 4) (nib : BitVec 5) (val : BitVec 4)
    (s : State) : Out :=
  checkFrame (.editnib sec blk nib val) s <| checkImage sec.toNat blk.toNat s <|
    if isBccNibble sec.toNat blk.toNat nib.toNat then raise .bccProtected s
    else
      needValue (nibbleEdit s.img sec.toNat blk.toNat nib.toNat val) fun img =>
        needValue (commitEdit img s) fun t => respond 0#32 [] t

/-- EDITACB: the checks, the pair encoded in the trailer of `sec`, `DIRTY`, the rebuild, and the
condition after it (spec/43_cardimage.md R170). -/
def execEditacb (sec : BitVec 6) (blk : BitVec 4) (pos : BitVec 2) (bit : Bool)
    (s : State) : Out :=
  checkPos pos s fun j =>
    checkFrame (.editacb sec blk pos bit) s <| checkImage sec.toNat blk.toNat s <|
      needValue (accessBitEdit chip.acmap s.img sec.toNat blk.toNat j bit) fun img =>
        needValue (commitEdit img s) fun t =>
          needValue (acOf t.act sec.toNat blk.toNat) fun ac =>
            respond ((ac4 ac).setWidth 32) [] t

end Sys2Proof.Machine
end

