-- ==== Sys2Proof/Machine/Checksum.lean ====
section
/-! DEFINITION. The stateless command of the checksum deriver (spec/42_checksum.md). -/

namespace Sys2Proof.Machine

/-- BCC: `respond(zext_32(bcc(P)), [])`; a loaded image's BCC byte is not touched
(spec/42_checksum.md R141). -/
def execBcc (len : BitVec 16) (s : State) : Out :=
  checkFrame (.bcc len) s <| respond ((bcc s.payload).setWidth 32) [] s

end Sys2Proof.Machine
end

