-- ==== Sys2Proof/Machine/Codec.lean ====
section
/-! DEFINITION. The stateless commands of the access-condition codec (spec/40_codec.md). Neither
reads or writes any state; both work whether or not an image is loaded. -/

namespace Sys2Proof.Machine

/-- ACDEC: `respond(ac4(acdec(P, slot)), [])` (spec/40_codec.md R114). -/
def execAcdec (slot : BitVec 2) (s : State) : Out :=
  checkFrame (.acdec slot) s <|
    respond ((ac4 (acdec chip.acmap s.payload slot.toFin)).setWidth 32) [] s

/-- ACENC: `respond(0, acenc(P, slot, pos, bit))` (spec/40_codec.md R116). -/
def execAcenc (slot : BitVec 2) (pos : BitVec 2) (bit : Bool) (s : State) : Out :=
  checkPos pos s fun j =>
    checkFrame (.acenc slot pos bit) s <|
      respond 0#32 (acenc chip.acmap s.payload slot.toFin j bit) s

end Sys2Proof.Machine
end

