-- ==== Sys2Proof/Machine/ValueBlock.lean ====
section
/-! DEFINITION. The stateless command of the value-block validator (spec/41_valueblock.md). -/

namespace Sys2Proof.Machine

/-- VBCHK: result 0 if `vbcheck(P) = OK`, else 1 (spec/41_valueblock.md R131). -/
def execVbchk (s : State) : Out :=
  checkFrame .vbchk s <| respond (vbCode (vbcheck s.payload)) [] s

end Sys2Proof.Machine
end

