-- ==== Sys2Proof/Machine/Dispatch.lean ====
section
/-! DEFINITION. The meaning of each command, one arm per row of spec/opcode_table.json. -/

namespace Sys2Proof.Machine

def exec (i : Instr) (s : State) : Host.Outcome State Fault Refusal :=
  match i with
  | .parse len => Sys2Proof.Machine.execParse len s
  | .serialize => Sys2Proof.Machine.execSerialize s
  | .editnib sec blk nib val => Sys2Proof.Machine.execEditnib sec blk nib val s
  | .editacb sec blk pos bit => Sys2Proof.Machine.execEditacb sec blk pos bit s
  | .rdblk sec blk => Sys2Proof.Machine.execRdblk sec blk s
  | .rdac sec blk => Sys2Proof.Machine.execRdac sec blk s
  | .rdvbs sec blk => Sys2Proof.Machine.execRdvbs sec blk s
  | .rdclass sec blk => Sys2Proof.Machine.execRdclass sec blk s
  | .rdrow row => Sys2Proof.Machine.execRdrow row s
  | .rdstat => Sys2Proof.Machine.execRdstat s
  | .acdec slot => Sys2Proof.Machine.execAcdec slot s
  | .acenc slot pos bit => Sys2Proof.Machine.execAcenc slot pos bit s
  | .vbchk => Sys2Proof.Machine.execVbchk s
  | .bcc len => Sys2Proof.Machine.execBcc len s

end Sys2Proof.Machine
end

