-- ==== Sys2Proof/Machine/Interface.lean ====
section
/-! DEFINITION. The command interface: what the host sends next, and reset
(spec/30_encoding.md R80, spec/70_reset_and_hazards.md R240, R245). The block has no program and
no program counter (spec/10_state.md R23): the host's inputs stand in `State.inbox`, and one step
takes one of them. -/

namespace Sys2Proof.Machine

/-- What stands at the interface at a command boundary. -/
inductive Arrival where
  /-- Nothing: the block is idle. -/
  | none
  /-- `rst`: the state it leaves. -/
  | reset (t : State)
  /-- A command: its header, and the state in which it runs, its payload on the interface. -/
  | command (header : Word) (t : State)
  deriving DecidableEq, Repr

/-- `rst` makes the state the reset state, whatever it was. What the host has still to send and
what it has received are the host's and stay (spec/70_reset_and_hazards.md R240, R242; DESIGN
CHOICE, log entry 7). Reset falls between commands (R241, log entry 6). -/
def applyReset (rest : List HostInput) (s : State) : State :=
  { State.reset with inbox := rest, outbox := s.outbox }

/-- A command is taken: it leaves the host's queue and its payload stands on the interface. -/
def takeCommand (p : List Byte) (rest : List HostInput) (s : State) : State :=
  { s with inbox := rest, payload := p }

/-- The next input of the host, taken in the order sent (spec/20_memory.md R63). -/
def nextArrival (s : State) : Arrival :=
  match s.inbox with
  | []                   => .none
  | .reset :: rest       => .reset (applyReset rest s)
  | .command h p :: rest => .command h (takeCommand p rest s)

/-- The state with a command placed before everything the host has still to send. -/
def placeCommand (h : Word) (p : List Byte) (s : State) : State :=
  { s with inbox := .command h p :: s.inbox }

/-- A payload of zero bytes of the length the header fixes; empty for an illegal header
(DESIGN CHOICE, log entry 12). -/
def zeroPayload (h : Word) : List Byte :=
  match decode h with
  | .ok i    => List.replicate i.paylen 0#8
  | .error _ => []

end Sys2Proof.Machine
end

