-- ==== Sys2Proof/Machine/Step.lean ====
section
/-! DEFINITION. One step: the block takes the next input of the host and answers it whole, so that
the host sees only states between commands (spec/20_memory.md R60, R63). -/

namespace Sys2Proof.Machine

/-- One step of the block. With no input it stays idle (spec/60_exceptions.md R225; DESIGN
CHOICE, log entry 5); `rst` gives the
reset state (spec/70_reset_and_hazards.md R240); an illegal header is answered `ERR_ILLEGAL`, its
payload discarded unread (spec/60_exceptions.md R211); a legal one runs its command. -/
def step (s : State) : Host.Outcome State Fault Refusal :=
  match nextArrival s with
  | .none        => .next s
  | .reset t     => .next t
  | .command h t =>
    match decode h with
    | .error _ => raise .illegal t
    | .ok i    => exec i t

/-- The state in which the very next step runs the command an opcode-table word stands for: its
header, with a payload of zero bytes of the length it fixes, is the host's next input. -/
def State.withFetchWord (s : State) (nbits w : Nat) : State :=
  placeCommand (headerOfTableWord nbits w) (zeroPayload (headerOfTableWord nbits w)) s

end Sys2Proof.Machine
end

