-- ==== Sys2Proof/Safety.lean ====
section
/-! DEFINITION. What a run of the block keeps, in the terms the statements use: the invariant of the
state at a command boundary, and the shape of a response. -/

namespace Sys2Proof.Machine

/-- The state proper is coherent: `LEN` is legal (spec/10_state.md R21), `DIRTY` is 0 when not
loaded (spec/44_addressing.md R201), `IMG` holds a value exactly at the addresses below `LEN`
(spec/10_state.md R25), and both tables are what `Rebuild()` computes (spec/10_state.md R34). -/
structure State.Coherent (s : State) : Prop where
  len_legal  : s.len.toNat = 0 ∨ s.len.toNat = 320 ∨ s.len.toNat = 1024 ∨ s.len.toNat = 4096
  dirty_loaded : s.len = 0#13 → s.dirty = false
  img_exact  : s.img.map Prod.fst = List.range s.len.toNat
  tables_eq  : tables chip s.len.toNat s.img = some (s.act, s.vbs)

/-- The invariant at a command boundary: coherent, and idle (spec/30_encoding.md R80). -/
structure State.Inv (s : State) : Prop where
  coherent : s.Coherent
  idle     : s.payload = []

/-- The image is held and `(sec, blk)` is legal (spec/10_state.md R27). -/
structure LegalAt (s : State) (sec : BitVec 6) (blk : BitVec 4) : Prop where
  loaded : s.len ≠ 0#13
  sec_lt : sec.toNat < nsec s.len.toNat
  blk_lt : blk.toNat < nblk sec.toNat

/-- `s` after one response and nothing else: the payload consumed and the response received; every
other field of the state is as it was. -/
def State.replied (s : State) (status : BitVec 4) (result : Word) (q : List Byte) : State :=
  { s with payload := [], outbox := s.outbox ++ [⟨status, result, q⟩] }

end Sys2Proof.Machine
end

