-- ==== Sys2Proof/Certificates/Slice0/Obligations.lean ====
section
/-! DEFINITION. The statements for the provers. First the words they share, each written from the
spec's own tables; then one `Obligations.<Name>` per statement. -/

namespace Sys2Proof.Spec

open Sys2Proof.Machine

/-- One row of the match and mask table, with the operands read at the bit positions of the format
(spec/30_encoding.md R81, R84). -/
structure HeaderRow where
  pattern    : Word
  mask       : Word
  posLimited : Bool
  operands   : Word → Instr

/-- The table of spec/30_encoding.md R84. -/
def headerTable : List HeaderRow :=
  [ ⟨0x10000000#32, 0xFFFF0000#32, false, fun h => .parse (h.extractLsb' 0 16)⟩,
    ⟨0x20000000#32, 0xFFFFFFFF#32, false, fun _ => .serialize⟩,
    ⟨0x30000000#32, 0xF00001FF#32, false, fun h => .editnib (h.extractLsb' 22 6)
      (h.extractLsb' 18 4) (h.extractLsb' 13 5) (h.extractLsb' 9 4)⟩,
    ⟨0x40000000#32, 0xF003FE3F#32, true, fun h => .editacb (h.extractLsb' 22 6)
      (h.extractLsb' 18 4) (h.extractLsb' 7 2) (h.getLsbD 6)⟩,
    ⟨0x50000000#32, 0xF003FFFF#32, false, fun h => .rdblk (h.extractLsb' 22 6) (h.extractLsb' 18 4)⟩,
    ⟨0x60000000#32, 0xF003FFFF#32, false, fun h => .rdac (h.extractLsb' 22 6) (h.extractLsb' 18 4)⟩,
    ⟨0x70000000#32, 0xF003FFFF#32, false, fun h => .rdvbs (h.extractLsb' 22 6) (h.extractLsb' 18 4)⟩,
    ⟨0x80000000#32, 0xF003FFFF#32, false,
      fun h => .rdclass (h.extractLsb' 22 6) (h.extractLsb' 18 4)⟩,
    ⟨0x90000000#32, 0xFFFF0000#32, false, fun h => .rdrow (h.extractLsb' 0 16)⟩,
    ⟨0xA0000000#32, 0xFFFFFFFF#32, false, fun _ => .rdstat⟩,
    ⟨0xB0000000#32, 0xFFFFFFCF#32, false, fun h => .acdec (h.extractLsb' 4 2)⟩,
    ⟨0xC0000000#32, 0xFFFFFE0F#32, true, fun h => .acenc (h.extractLsb' 4 2) (h.extractLsb' 7 2)
      (h.getLsbD 6)⟩,
    ⟨0xD0000000#32, 0xFFFFFFFF#32, false, fun _ => .vbchk⟩,
    ⟨0xE0000000#32, 0xFFFF0000#32, false, fun h => .bcc (h.extractLsb' 0 16)⟩ ]

/-- A header selects a row: `H & mask = match`, and `H[8:7] != 3` where the row says so. -/
def HeaderRow.Selects (r : HeaderRow) (h : Word) : Prop :=
  h &&& r.mask = r.pattern ∧ (r.posLimited = true → h.extractLsb' 7 2 ≠ 3#2)

/-- Some row is selected. -/
def LegalHeader (h : Word) : Prop := ∃ r ∈ headerTable, r.Selects h

/-- `paylen(H)` (spec/30_encoding.md R85). -/
def payloadLength : Instr → Nat
  | .parse len | .bcc len      => len.toNat
  | .acdec _ | .acenc _ _ _    => 4
  | .vbchk                     => 16
  | _                          => 0

/-- The status codes other than `OK` that a command with a legal header can be answered with
(spec/60_exceptions.md R217). -/
def mayRaise : Instr → List (BitVec 4)
  | .parse _                                              => [6, 1]
  | .serialize                                            => [6, 2]
  | .editnib _ _ _ _                                      => [6, 2, 3, 4]
  | .editacb _ _ _ _                                      => [6, 2, 3]
  | .rdblk _ _ | .rdac _ _ | .rdvbs _ _ | .rdclass _ _    => [6, 2, 3]
  | .rdrow _                                              => [6, 2, 3]
  | .rdstat | .acdec _ | .acenc _ _ _ | .vbchk | .bcc _   => [6]

/-- The eight commands that need an image (spec/60_exceptions.md R215). -/
def needsImage : Instr → Bool
  | .serialize | .editnib _ _ _ _ | .editacb _ _ _ _ | .rdblk _ _ | .rdac _ _ | .rdvbs _ _
  | .rdclass _ _ | .rdrow _ => true
  | _ => false

/-- The ten commands without a side effect (spec/20_memory.md R61). -/
def readOnly : Instr → Bool
  | .parse _ | .serialize | .editnib _ _ _ _ | .editacb _ _ _ _ => false
  | _ => true

/-- The bytes of `IMG` a successful command may change (spec/20_memory.md R62). -/
def MayWrite : Instr → Nat → Prop
  | .parse _, _ => True
  | .editnib sec blk nib _, a =>
      a = off sec.toNat blk.toNat + nib.toNat / 2 ∨ sec = 0 ∧ blk = 0 ∧ nib.toNat ≤ 7 ∧ a = 4
  | .editacb sec blk pos _, a => ∃ j : Fin 3, j.val = pos.toNat ∧
      (a = accessOff sec.toNat + (chip.acmap (slotOf sec.toNat blk.toNat) j).direct.val / 8 ∨
       a = accessOff sec.toNat + (chip.acmap (slotOf sec.toNat blk.toNat) j).inverted.val / 8)
  | _, _ => False

/-- `DIRTY` after a successful command (spec/10_state.md R22). -/
def dirtyAfter : Instr → Bool → Bool
  | .editnib _ _ _ _, _ | .editacb _ _ _ _, _ => true
  | .parse _, _ | .serialize, _               => false
  | _, d                                      => d

/-- A command that is a PARSE and will succeed, whatever the state (spec/43_cardimage.md R160). -/
def ParseSucceeds (c : Word × List Byte) : Prop :=
  ∃ len : BitVec 16, decode c.1 = .ok (.parse len) ∧ c.2.length = len.toNat ∧
    (len.toNat = 320 ∨ len.toNat = 1024 ∨ len.toNat = 4096)

/-- The operands of a command are legal in a state: an image is held where one is needed, the
address is inside the geometry, the size is legal, and the nibble is not one of the BCC byte
(spec/43_cardimage.md R178, spec/10_state.md R27). -/
def OperandsLegal (s : State) : Instr → Prop
  | .parse len => len.toNat = 320 ∨ len.toNat = 1024 ∨ len.toNat = 4096
  | .serialize => s.len ≠ 0
  | .editnib sec blk nib _ => LegalAt s sec blk ∧ ¬ (sec = 0 ∧ blk = 0 ∧ (nib = 8 ∨ nib = 9))
  | .editacb sec blk _ _ | .rdblk sec blk | .rdac sec blk | .rdvbs sec blk | .rdclass sec blk =>
      LegalAt s sec blk
  | .rdrow row => s.len ≠ 0 ∧ row.toNat < nblocks s.len.toNat
  | _ => True

/-- A command with this opcode and an illegal header is answered `ERR_ILLEGAL` and changes nothing
(spec/60_exceptions.md R211). -/
def AnswersIllegal (opcode : BitVec 4) (bad : Word → Prop) : Prop :=
  ∀ (s : State) (h : Word) (p : List Byte) (rest : List HostInput),
    s.inbox = .command h p :: rest → h.extractLsb' 28 4 = opcode → bad h →
    step s = .next (State.replied { s with inbox := rest } 5#4 0#32 [])

/-- The errors of a command that addresses a block of the image, in their order
(spec/43_cardimage.md R151, spec/60_exceptions.md R218). -/
def ImageErrors (i : Instr) (s : State) (sec blk : Nat) : Prop :=
  (s.payload ≠ [] → exec i s = .next (s.replied 6#4 0#32 [])) ∧
  (s.payload = [] → s.len = 0 → exec i s = .next (s.replied 2#4 0#32 [])) ∧
  (s.payload = [] → s.len ≠ 0 → (nsec s.len.toNat ≤ sec ∨ nblk sec ≤ blk) →
    exec i s = .next (s.replied 3#4 0#32 []))

/-- One response from `s` to `t`: the payload is consumed, the host's queue is as it was. -/
def Reply (s t : State) (status : BitVec 4) (result : Word) (q : List Byte) : Prop :=
  t.payload = [] ∧ t.inbox = s.inbox ∧ t.outbox = s.outbox ++ [⟨status, result, q⟩]

/-- The tables of a state are those `Rebuild()` computes (spec/10_state.md R34). -/
def TablesRebuilt (t : State) : Prop := tables chip t.len.toNat t.img = some (t.act, t.vbs)

/-- The pair of bit `j` of the condition of block `(sec, blk)` (spec/00_scope.md R8). -/
def pairOf (sec blk : Nat) (j : Fin 3) : AcPair := chip.acmap (slotOf sec blk) j

/-- `zext_32(ac4(c))` (spec/30_encoding.md R89). -/
def acResult : AccessCond → Word
  | .valid c => c.setWidth 32
  | .corrupt => 8#32

/-- The equations of a value block that passes (spec/41_valueblock.md R133 a). -/
def ValueBlockPasses (B : List Byte) : Prop :=
  (∀ i < 4, B.getD (4 + i) 0 = ~~~(B.getD i 0) ∧ B.getD (8 + i) 0 = B.getD i 0) ∧
  B.getD 13 0 = ~~~(B.getD 12 0) ∧ B.getD 14 0 = B.getD 12 0 ∧ B.getD 15 0 = ~~~(B.getD 12 0)

end Sys2Proof.Spec

open Sys2Proof Sys2Proof.Machine Sys2Proof.Spec

/-! ### Headers -/

/-- spec/30_encoding.md R84: a header selects a command iff it agrees with a row's match and mask,
and no two rows match one header. -/
def Obligations.DecoderFollowsMatchAndMask : Prop :=
  (∀ (h : Word) (i : Instr),
    decode h = .ok i ↔ ∃ r ∈ headerTable, r.Selects h ∧ r.operands h = i) ∧
  ∀ (h : Word), ∀ r ∈ headerTable, ∀ r' ∈ headerTable,
    r.Selects h → r'.Selects h → r.pattern = r'.pattern

/-- spec/60_exceptions.md R211: a header that selects no row is answered `ERR_ILLEGAL`, its payload
discarded, whatever the state. -/
def Obligations.IllegalHeaderIsAnsweredIllegal : Prop :=
  ∀ (s : State) (h : Word) (p : List Byte) (rest : List HostInput),
    s.inbox = .command h p :: rest → ¬ LegalHeader h →
    step s = .next (State.replied { s with inbox := rest } 5#4 0#32 [])

/-- Header words of spec/95_test_vectors.md section 2.1, decoded. -/
def Obligations.ListedHeadersDecodeAsWritten : Prop :=
  decode 0x10000140#32 = .ok (.parse 320) ∧ decode 0x20000000#32 = .ok .serialize ∧
  decode 0x30442A00#32 = .ok (.editnib 1 1 1 5) ∧ decode 0x39FFFE00#32 = .ok (.editnib 39 15 31 15) ∧
  decode 0x481C00C0#32 = .ok (.editacb 32 7 1 true) ∧ decode 0x50440000#32 = .ok (.rdblk 1 1) ∧
  decode 0x681C0000#32 = .ok (.rdac 32 7) ∧ decode 0x70440000#32 = .ok (.rdvbs 1 1) ∧
  decode 0x800C0000#32 = .ok (.rdclass 0 3) ∧ decode 0x9000008F#32 = .ok (.rdrow 143) ∧
  decode 0xA0000000#32 = .ok .rdstat ∧ decode 0xB0000030#32 = .ok (.acdec 3) ∧
  decode 0xC0000130#32 = .ok (.acenc 3 2 false) ∧ decode 0xD0000000#32 = .ok .vbchk ∧
  decode 0xE0000004#32 = .ok (.bcc 4) ∧ decode 0x00000000#32 = .error .opcode ∧
  decode 0x20000001#32 = .error .mustBeZero ∧ decode 0x40000180#32 = .error .reservedPos

/-- Decoding the encoding of a well-formed instruction gives it back. -/
def Obligations.DecodeOfEncodeIsIdentity : Prop :=
  ∀ i : Instr, i.WellFormed → decode (encode i) = .ok i

/-- A legal header is the encoding of the well-formed instruction it decodes to. -/
def Obligations.EncodeOfDecodeIsIdentity : Prop :=
  ∀ (h : Word) (i : Instr), decode h = .ok i → i.WellFormed ∧ encode i = h

/-! ### Steps, reset, the invariant -/

/-- A step runs the decoded command (spec/30_encoding.md R80), its payload on the interface. The
queue and the payload field are the model's own (log entries 4 and 8). -/
def Obligations.StepRunsDecodedCommand : Prop :=
  ∀ (s : State) (h : Word) (p : List Byte) (rest : List HostInput) (i : Instr),
    s.inbox = .command h p :: rest → decode h = .ok i →
    step s = exec i { s with inbox := rest, payload := p }

/-- With nothing sent by the host, a step changes nothing. The model's choice (log entry 5), on
spec/60_exceptions.md R223 "Nothing happens in the block except in answer to a command". -/
def Obligations.IdleStepChangesNothing : Prop :=
  ∀ s : State, s.inbox = [] → step s = .next s

/-- spec/10_state.md R40: what reset leaves, from any state. Nothing holds a value but `LEN` and
`DIRTY`; a command that would read a value answers `ERR_NOT_LOADED`; the first successful PARSE
writes every element a later command can read; and RDSTAT answers 0. -/
def Obligations.ResetLeavesUnloadedBlock : Prop :=
  ∀ (s : State) (rest : List HostInput), s.inbox = .reset :: rest →
    ∃ t : State, step s = .next t ∧ t.len = 0 ∧ t.dirty = false ∧ (∀ a, Memory.read t.img a = none) ∧
      (∀ n : Nat, t.act[n]? = none) ∧ (∀ n : Nat, t.vbs[n]? = none) ∧ t.payload = [] ∧
      exec .rdstat t = .next (t.replied 0#4 0#32 []) ∧
      (∀ (i : Instr) (p : List Byte), i.WellFormed → p.length = payloadLength i →
        needsImage i = true → exec i { t with payload := p } = .next (t.replied 2#4 0#32 [])) ∧
      ∀ (len : BitVec 16) (p : List Byte), p.length = len.toNat →
        (len.toNat = 320 ∨ len.toNat = 1024 ∨ len.toNat = 4096) →
        ∃ u, exec (.parse len) { t with payload := p } = .next u ∧
          (∀ a < len.toNat, (Memory.read u.img a).isSome = true) ∧
          u.act.length = nsec len.toNat ∧ u.vbs.length = nblocks len.toNat

/-- The reset state has the invariant. -/
def Obligations.ResetStateHasInvariant : Prop := State.reset.Inv

/-- Every step keeps the invariant: `LEN` legal, a dirty flag only on a held image, `IMG` with a
value exactly below `LEN`, both tables as the rebuild computes them, an idle interface. -/
def Obligations.StepKeepsInvariant : Prop :=
  ∀ s t : State, s.Inv → step s = .next t → t.Inv

/-- Every command is answered: from a state with the invariant a step never stops, takes the host's
next input, and answers a command with exactly one response, whose status is one of the seven. -/
def Obligations.EveryCommandGetsOneResponse : Prop :=
  ∀ (s : State) (h : Word) (p : List Byte) (rest : List HostInput),
    s.Inv → s.inbox = .command h p :: rest →
    ∃ t r, step s = .next t ∧ t.inbox = rest ∧ t.payload = [] ∧ t.outbox = s.outbox ++ [r] ∧
      r.status.toNat ≤ 6

/-- The invariant gives the canonical form of the store, and a value exactly below `LEN`. -/
def Obligations.InvariantGivesCanonicalStore : Prop :=
  ∀ s : State, s.Coherent →
    Memory.wf s.img = true ∧ ∀ a, (Memory.read s.img a).isSome = true ↔ a < s.len.toNat

/-! ### Errors -/

/-- spec/60_exceptions.md R219: an error response changes nothing, result 0, empty payload. -/
def Obligations.ErrorResponseLeavesNoTrace : Prop :=
  ∀ (s t : State) (h : Word) (p : List Byte) (rest : List HostInput) (r : Response),
    s.inbox = .command h p :: rest → step s = .next t → t.outbox = s.outbox ++ [r] →
    r.status ≠ 0 → t = State.replied { s with inbox := rest } r.status 0#32 []

/-- spec/60_exceptions.md R212: a legal header with a payload of another length. -/
def Obligations.WrongPayloadLengthIsFrameError : Prop :=
  ∀ (i : Instr) (s : State), i.WellFormed → s.payload.length ≠ payloadLength i →
    exec i s = .next (s.replied 6#4 0#32 [])

/-- spec/60_exceptions.md R213: PARSE of a size that is not legal, and nothing else, is answered
`ERR_INVALID_SIZE`. -/
def Obligations.ParseOfOtherSizeIsInvalidSize : Prop :=
  (∀ (s : State) (len : BitVec 16), s.payload.length = len.toNat →
    ¬ (len.toNat = 320 ∨ len.toNat = 1024 ∨ len.toNat = 4096) →
    exec (.parse len) s = .next (s.replied 1#4 0#32 [])) ∧
  ∀ (i : Instr) (s t : State) (r : Response), exec i s = .next t → t.outbox = s.outbox ++ [r] →
    r.status = 1 →
    ∃ len, i = .parse len ∧ ¬ (len.toNat = 320 ∨ len.toNat = 1024 ∨ len.toNat = 4096)

/-- spec/60_exceptions.md R215: with no image held, exactly the eight commands that need one answer
`ERR_NOT_LOADED`. -/
def Obligations.UnloadedBlockAnswersNotLoaded : Prop :=
  ∀ (i : Instr) (s : State), i.WellFormed → s.payload.length = payloadLength i → s.len = 0 →
    (needsImage i = true → exec i s = .next (s.replied 2#4 0#32 [])) ∧
    (needsImage i = false → ∃ t r, exec i s = .next t ∧ t.outbox = s.outbox ++ [r] ∧ r.status ≠ 2)

/-- spec/60_exceptions.md R216: the two nibbles of the BCC byte are refused to EDITNIB, and no other
command is answered `ERR_PROTECTED`. -/
def Obligations.OnlyBccNibblesAreProtected : Prop :=
  (∀ (s : State) (nib : BitVec 5) (val : BitVec 4), s.payload = [] → LegalAt s 0 0 →
    (nib = 8 ∨ nib = 9) → exec (.editnib 0 0 nib val) s = .next (s.replied 4#4 0#32 [])) ∧
  ∀ (i : Instr) (s t : State) (r : Response), exec i s = .next t → t.outbox = s.outbox ++ [r] →
    r.status = 4 → ∃ nib val, (nib = 8 ∨ nib = 9) ∧ i = .editnib 0 0 nib val

/-- spec/60_exceptions.md R217, the blank entries: a command with a legal header is answered `OK` or
one of the statuses its row allows. -/
def Obligations.StatusIsOneTheCommandMayRaise : Prop :=
  ∀ (i : Instr) (s t : State) (r : Response), i.WellFormed → exec i s = .next t →
    t.outbox = s.outbox ++ [r] → r.status = 0 ∨ r.status ∈ mayRaise i

/-! ### The card image -/

/-- spec/43_cardimage.md R160. -/
def Obligations.ParseFollowsRule : Prop :=
  AnswersIllegal 0x1#4 (fun h => h.extractLsb' 16 12 ≠ 0) ∧
  ∀ (s : State) (len : BitVec 16),
    (s.payload.length ≠ len.toNat → exec (.parse len) s = .next (s.replied 6#4 0#32 [])) ∧
    (s.payload.length = len.toNat → ¬ (len.toNat = 320 ∨ len.toNat = 1024 ∨ len.toNat = 4096) →
      exec (.parse len) s = .next (s.replied 1#4 0#32 [])) ∧
    (s.payload.length = len.toNat → (len.toNat = 320 ∨ len.toNat = 1024 ∨ len.toNat = 4096) →
      ∃ t, exec (.parse len) s = .next t ∧ t.len.toNat = len.toNat ∧ t.dirty = false ∧
        (∀ a, Memory.read t.img a = s.payload[a]?) ∧ TablesRebuilt t ∧
        Reply s t 0#4 (len.setWidth 32) [])

/-- spec/43_cardimage.md R161: a successful PARSE leaves nothing of the old state, whatever it was;
a failed one changes nothing. -/
def Obligations.ParseReplacesWholeState : Prop :=
  (∀ (s s' : State) (len : BitVec 16), s.payload.length = len.toNat → s'.payload = s.payload →
    (len.toNat = 320 ∨ len.toNat = 1024 ∨ len.toNat = 4096) →
    ∃ t t' : State, exec (.parse len) s = .next t ∧ exec (.parse len) s' = .next t' ∧
      t.dirty = false ∧
      t' = { t with inbox := s'.inbox, outbox := s'.outbox ++ [⟨0#4, len.setWidth 32, []⟩] }) ∧
  ∀ (s t : State) (len : BitVec 16) (r : Response), exec (.parse len) s = .next t →
    t.outbox = s.outbox ++ [r] → r.status ≠ 0 → t = s.replied r.status 0#32 []

/-- spec/43_cardimage.md R175. -/
def Obligations.SerializeFollowsRule : Prop :=
  AnswersIllegal 0x2#4 (fun h => h.extractLsb' 0 28 ≠ 0) ∧
  ∀ s : State,
    (s.payload ≠ [] → exec .serialize s = .next (s.replied 6#4 0#32 [])) ∧
    (s.payload = [] → s.len = 0 → exec .serialize s = .next (s.replied 2#4 0#32 [])) ∧
    (s.payload = [] → s.len ≠ 0 → s.Coherent →
      ∃ q, q.length = s.len.toNat ∧ (∀ a < s.len.toNat, Memory.read s.img a = q[a]?) ∧
        exec .serialize s =
          .next (State.replied { s with dirty := false } 0#4 (s.len.setWidth 32) q))

/-- spec/43_cardimage.md R177: the bytes SERIALIZE returns after a PARSE of `X` and any commands that
are no successful PARSE are `X` but at the bytes that a command between, answered `OK`, may write
(the response to command `n` stands `n + 1` places after what was there at the start); with no command
between, they are `X`. -/
def Obligations.SerializedBytesDifferOnlyByEdits : Prop :=
  ∀ (s : State) (len : BitVec 16) (X : List Byte) (cmds : List (Word × List Byte))
    (rest : List HostInput),
    X.length = len.toNat → (len.toNat = 320 ∨ len.toNat = 1024 ∨ len.toNat = 4096) →
    (∀ c ∈ cmds, ¬ ParseSucceeds c) →
    s.inbox = .command (0x1000#16 ++ len) X ::
      (cmds.map fun c => HostInput.command c.1 c.2) ++ .command 0x20000000#32 [] :: rest →
    ∃ t q, Host.Core.run core (cmds.length + 2) s = .next t ∧
      t.outbox.getLast? = some ⟨0#4, len.setWidth 32, q⟩ ∧ q.length = len.toNat ∧
      (∀ a : Nat, q[a]? ≠ X[a]? → ∃ (n : Nat) (c : Word × List Byte) (i : Instr) (r : Response),
        cmds[n]? = some c ∧ decode c.1 = .ok i ∧ MayWrite i a ∧
        t.outbox[s.outbox.length + 1 + n]? = some r ∧ r.status = 0) ∧
      (cmds = [] → q = X)

/-- spec/43_cardimage.md R165. -/
def Obligations.EditnibFollowsRule : Prop :=
  AnswersIllegal 0x3#4 (fun h => h.extractLsb' 0 9 ≠ 0) ∧
  ∀ (s : State) (sec : BitVec 6) (blk : BitVec 4) (nib : BitVec 5) (val : BitVec 4),
    ImageErrors (.editnib sec blk nib val) s sec.toNat blk.toNat ∧
    (s.payload = [] → LegalAt s sec blk → sec = 0 ∧ blk = 0 ∧ (nib = 8 ∨ nib = 9) →
      exec (.editnib sec blk nib val) s = .next (s.replied 4#4 0#32 [])) ∧
    (s.payload = [] → LegalAt s sec blk → ¬ (sec = 0 ∧ blk = 0 ∧ (nib = 8 ∨ nib = 9)) →
      s.Coherent →
      ∃ t old new, exec (.editnib sec blk nib val) s = .next t ∧
        Memory.read s.img (off sec.toNat blk.toNat + nib.toNat / 2) = some old ∧
        Memory.read t.img (off sec.toNat blk.toNat + nib.toNat / 2) = some new ∧
        (nib.toNat % 2 = 0 →
          new.extractLsb' 4 4 = val ∧ new.extractLsb' 0 4 = old.extractLsb' 0 4) ∧
        (nib.toNat % 2 = 1 →
          new.extractLsb' 0 4 = val ∧ new.extractLsb' 4 4 = old.extractLsb' 4 4) ∧
        (sec = 0 ∧ blk = 0 ∧ nib.toNat ≤ 7 → ∃ u0 u1 u2 u3,
          Memory.read t.img 0 = some u0 ∧ Memory.read t.img 1 = some u1 ∧
          Memory.read t.img 2 = some u2 ∧ Memory.read t.img 3 = some u3 ∧
          Memory.read t.img 4 = some (u0 ^^^ u1 ^^^ u2 ^^^ u3)) ∧
        (∀ c, c ≠ off sec.toNat blk.toNat + nib.toNat / 2 →
          (sec = 0 ∧ blk = 0 ∧ nib.toNat ≤ 7 → c ≠ 4) →
          Memory.read t.img c = Memory.read s.img c) ∧
        t.len = s.len ∧ t.dirty = true ∧ TablesRebuilt t ∧ Reply s t 0#4 0#32 [])

/-- spec/43_cardimage.md R170. -/
def Obligations.EditacbFollowsRule : Prop :=
  AnswersIllegal 0x4#4 (fun h =>
    h.extractLsb' 9 9 ≠ 0 ∨ h.extractLsb' 0 6 ≠ 0 ∨ h.extractLsb' 7 2 = 3#2) ∧
  ∀ (s : State) (sec : BitVec 6) (blk : BitVec 4) (pos : BitVec 2) (bit : Bool) (j : Fin 3),
    pos.toNat = j.val →
    ImageErrors (.editacb sec blk pos bit) s sec.toNat blk.toNat ∧
    (s.payload = [] → LegalAt s sec blk → s.Coherent →
      ∃ t A B, exec (.editacb sec blk pos bit) s = .next t ∧
        memRead s.img (accessOff sec.toNat) 4 = some A ∧
        memRead t.img (accessOff sec.toNat) 4 = some B ∧
        (∀ p : Fin 32, getbit B p =
          if p = (pairOf sec.toNat blk.toNat j).direct then bit
          else if p = (pairOf sec.toNat blk.toNat j).inverted then !bit
          else getbit A p) ∧
        (∀ c, (c < accessOff sec.toNat ∨ accessOff sec.toNat + 4 ≤ c) →
          Memory.read t.img c = Memory.read s.img c) ∧
        t.len = s.len ∧ t.dirty = true ∧ TablesRebuilt t ∧
        ∃ c, acOf t.act sec.toNat blk.toNat = some c ∧
          c = acdec chip.acmap B (slotOf sec.toNat blk.toNat) ∧ Reply s t 0#4 (acResult c) [])

/-- spec/43_cardimage.md R171: EDITACB changes the condition of every block of the slot it names and
of no other block, and leaves the value-block status of every block outside the slot. -/
def Obligations.EditacbChangesOnlyItsSlot : Prop :=
  ∀ (s : State) (sec : BitVec 6) (blk : BitVec 4) (pos : BitVec 2) (bit : Bool),
    s.payload = [] → LegalAt s sec blk → s.Coherent → pos ≠ 3 →
    ∃ t, exec (.editacb sec blk pos bit) s = .next t ∧
      ∀ s' b', s' < nsec s.len.toNat → b' < nblk s' →
        (s' = sec.toNat ∧ slotOf s' b' = slotOf sec.toNat blk.toNat →
          acOf t.act s' b' = acOf t.act sec.toNat blk.toNat) ∧
        (¬ (s' = sec.toNat ∧ slotOf s' b' = slotOf sec.toNat blk.toNat) →
          acOf t.act s' b' = acOf s.act s' b' ∧ t.vbs[flat s' b']? = s.vbs[flat s' b']?)

/-- spec/40_codec.md R118: three EDITACB commands, one per `pos`, in any order, leave the slot valid
with the bits written, whatever it was before. -/
def Obligations.ThreeEditacbMakeSlotValid : Prop :=
  ∀ (s : State) (sec : BitVec 6) (blk : BitVec 4) (p0 p1 p2 : BitVec 2) (v0 v1 v2 : Bool),
    s.payload = [] → LegalAt s sec blk → s.Coherent →
    p0 ≠ 3 → p1 ≠ 3 → p2 ≠ 3 → p0 ≠ p1 → p0 ≠ p2 → p1 ≠ p2 →
    ∃ t0 t1 t2 c, exec (.editacb sec blk p0 v0) s = .next t0 ∧
      exec (.editacb sec blk p1 v1) t0 = .next t1 ∧ exec (.editacb sec blk p2 v2) t1 = .next t2 ∧
      acOf t2.act sec.toNat blk.toNat = some (.valid c) ∧
      c.getLsbD (2 - p0.toNat) = v0 ∧ c.getLsbD (2 - p1.toNat) = v1 ∧ c.getLsbD (2 - p2.toNat) = v2

/-- spec/43_cardimage.md R167: which table entries an EDITNIB can change. That trailer byte 9 holds no
access bit is the default table's (log entry 1). -/
def Obligations.EditnibChangesOnlyNamedTableEntries : Prop :=
  ∀ (s : State) (sec : BitVec 6) (blk : BitVec 4) (nib : BitVec 5) (val : BitVec 4),
    s.payload = [] → LegalAt s sec blk → s.Coherent → ¬ (sec = 0 ∧ blk = 0 ∧ (nib = 8 ∨ nib = 9)) →
    ∃ t, exec (.editnib sec blk nib val) s = .next t ∧
      (blk.toNat = tb sec.toNat ∧ 12 ≤ nib.toNat ∧ nib.toNat ≤ 17 →
        (∀ s', s' ≠ sec.toNat → t.act[s']? = s.act[s']?) ∧
        ∀ s' b', s' < nsec s.len.toNat → b' < nblk s' → s' ≠ sec.toNat →
          t.vbs[flat s' b']? = s.vbs[flat s' b']?) ∧
      (blk.toNat ≠ tb sec.toNat ∧ ¬ (sec = 0 ∧ blk = 0) →
        t.act = s.act ∧ (∀ n, n ≠ flat sec.toNat blk.toNat → t.vbs[n]? = s.vbs[n]?) ∧
        ((∀ c, acOf s.act sec.toNat blk.toNat = some (.valid c) → c ∉ chip.vbCodes) →
          t.vbs = s.vbs)) ∧
      (sec = 0 ∧ blk = 0 ∨ blk.toNat = tb sec.toNat ∧ ¬ (12 ≤ nib.toNat ∧ nib.toNat ≤ 17) →
        t.act = s.act ∧ t.vbs = s.vbs)

/-- spec/43_cardimage.md R152: what the rebuild computes, entry by entry, for every value of the two
parameters. -/
def Obligations.RebuildComputesEveryEntry : Prop :=
  ∀ (c : Config) (len : Nat) (img : Memory) (act : List AcRow) (vbs : List VbStatus),
    (len = 320 ∨ len = 1024 ∨ len = 4096) → tables c len img = some (act, vbs) →
    act.length = nsec len ∧ vbs.length = nblocks len ∧
    (∀ s < nsec len, ∃ A row, memRead img (off s (tb s) + 6) 4 = some A ∧ act[s]? = some row ∧
      ∀ k : Fin 4, row.get k = acdec c.acmap A k) ∧
    (∀ s b, s < nsec len → b < nblk s → vbs[flat s b]? = blockStatus c img act s b)

/-- spec/43_cardimage.md R153: the rebuild is total on every image of a legal length, and depends on
the bytes of the image and `LEN` alone. -/
def Obligations.RebuildIsTotal : Prop :=
  ∀ (c : Config) (len : Nat) (img : Memory), (len = 320 ∨ len = 1024 ∨ len = 4096) →
    (∀ a < len, (Memory.read img a).isSome = true) →
    (∃ act vbs, tables c len img = some (act, vbs)) ∧
    ∀ img' : Memory, (∀ a < len, Memory.read img' a = Memory.read img a) →
      tables c len img' = tables c len img

/-- spec/43_cardimage.md R154, R155: the status of a block, the manufacturer test first. -/
def Obligations.BlockStatusFollowsRule : Prop :=
  ∀ (c : Config) (img : Memory) (act : List AcRow) (s b : Nat),
    (s = 0 ∧ b = 0 → blockStatus c img act s b = some .ok) ∧
    (b = tb s → blockStatus c img act s b = some .ok) ∧
    (acOf act s b = some .corrupt → blockStatus c img act s b = some .ok) ∧
    (∀ x, acOf act s b = some (.valid x) → x ∉ c.vbCodes → blockStatus c img act s b = some .ok) ∧
    (∀ x B, ¬ (s = 0 ∧ b = 0) → b ≠ tb s → acOf act s b = some (.valid x) → x ∈ c.vbCodes →
      memRead img (off s b) 16 = some B → blockStatus c img act s b = some (vbcheck B))

/-- spec/20_memory.md R62: the bytes of `IMG` a command may change, and no other; those of EDITACB
are, with the table this hardware takes (log entry 1), two of trailer bytes 6, 7 and 8, so byte 9 is
never changed. -/
def Obligations.OnlyNamedBytesChange : Prop :=
  (∀ (i : Instr) (s t : State), exec i s = .next t →
    ∀ a, Memory.read t.img a ≠ Memory.read s.img a → MayWrite i a) ∧
  ∀ (sec : BitVec 6) (blk : BitVec 4) (pos : BitVec 2) (bit : Bool),
    ∃ x y, x < 3 ∧ y < 3 ∧ x ≠ y ∧ ∀ a, MayWrite (.editacb sec blk pos bit) a →
      a = off sec.toNat (tb sec.toNat) + 6 + x ∨ a = off sec.toNat (tb sec.toNat) + 6 + y

/-- spec/10_state.md R22: who sets and who clears `DIRTY`, and that no command but RDSTAT behaves
differently for it. -/
def Obligations.DirtyFlagFollowsRule : Prop :=
  (∀ s t : State, step s = .next t →
    (s.inbox = [] → t.dirty = s.dirty) ∧
    (∀ rest, s.inbox = .reset :: rest → t.dirty = false) ∧
    ∀ h p rest, s.inbox = .command h p :: rest →
      (¬ LegalHeader h → t.dirty = s.dirty) ∧
      ∀ i r, decode h = .ok i → t.outbox = s.outbox ++ [r] →
        t.dirty = if r.status = 0 then dirtyAfter i s.dirty else s.dirty) ∧
  ∀ (i : Instr) (s t : State) (d : Bool), i ≠ .rdstat → exec i s = .next t →
    ∃ t', exec i { s with dirty := d } = .next t' ∧ { t' with dirty := t.dirty } = t

/-- spec/10_state.md R21: `LEN` is written only by a successful PARSE and by reset. -/
def Obligations.LengthChangesOnlyByParseOrReset : Prop :=
  ∀ s t : State, step s = .next t → t.len ≠ s.len →
    (∃ rest, s.inbox = .reset :: rest ∧ t.len = 0) ∨
    ∃ h p rest len r, s.inbox = .command h p :: rest ∧ decode h = .ok (.parse len) ∧
      t.outbox = s.outbox ++ [r] ∧ r.status = 0 ∧ t.len.toNat = len.toNat ∧
      (len.toNat = 320 ∨ len.toNat = 1024 ∨ len.toNat = 4096)

/-- spec/43_cardimage.md R178: every legal command on a coherent state completes with status `OK`,
and only PARSE changes the geometry. -/
def Obligations.LegalCommandCompletes : Prop :=
  ∀ (i : Instr) (s : State), i.WellFormed → s.payload.length = payloadLength i → s.Coherent →
    OperandsLegal s i →
    ∃ t r, exec i s = .next t ∧ t.outbox = s.outbox ++ [r] ∧ r.status = 0 ∧
      ((∀ len, i ≠ .parse len) → t.len = s.len)

/-- spec/20_memory.md R61: the ten commands without side effect leave every register, table and byte
of the state, whatever the status. -/
def Obligations.ReadsAndStatelessCommandsChangeNothing : Prop :=
  ∀ (i : Instr) (s t : State), readOnly i = true → exec i s = .next t →
    ∃ r : Response, t = s.replied r.status r.result r.payload

/-- spec/20_memory.md R61: a command sent again gets the same response and changes nothing more. -/
def Obligations.RepeatedCommandChangesNothingMore : Prop :=
  ∀ (i : Instr) (s t : State) (r : Response), s.Coherent → exec i s = .next t →
    t.outbox = s.outbox ++ [r] →
    exec i { t with payload := s.payload } = .next (t.replied r.status r.result r.payload)

/-! ### The read commands -/

/-- spec/44_addressing.md R192. -/
def Obligations.RdblkFollowsRule : Prop :=
  AnswersIllegal 0x5#4 (fun h => h.extractLsb' 0 18 ≠ 0) ∧
  ∀ (s : State) (sec : BitVec 6) (blk : BitVec 4),
    ImageErrors (.rdblk sec blk) s sec.toNat blk.toNat ∧
    (s.payload = [] → LegalAt s sec blk → s.Coherent →
      ∃ B, B.length = 16 ∧ (∀ i < 16, Memory.read s.img (off sec.toNat blk.toNat + i) = B[i]?) ∧
        exec (.rdblk sec blk) s = .next (s.replied 0#4 0#32 B))

/-- spec/44_addressing.md R194. -/
def Obligations.RdacFollowsRule : Prop :=
  AnswersIllegal 0x6#4 (fun h => h.extractLsb' 0 18 ≠ 0) ∧
  ∀ (s : State) (sec : BitVec 6) (blk : BitVec 4),
    ImageErrors (.rdac sec blk) s sec.toNat blk.toNat ∧
    (s.payload = [] → LegalAt s sec blk → s.Coherent →
      ∃ A c, memRead s.img (accessOff sec.toNat) 4 = some A ∧
        acOf s.act sec.toNat blk.toNat = some c ∧
        c = acdec chip.acmap A (slotOf sec.toNat blk.toNat) ∧
        exec (.rdac sec blk) s = .next (s.replied 0#4 (acResult c) []))

/-- spec/44_addressing.md R196. -/
def Obligations.RdvbsFollowsRule : Prop :=
  AnswersIllegal 0x7#4 (fun h => h.extractLsb' 0 18 ≠ 0) ∧
  ∀ (s : State) (sec : BitVec 6) (blk : BitVec 4),
    ImageErrors (.rdvbs sec blk) s sec.toNat blk.toNat ∧
    (s.payload = [] → LegalAt s sec blk → s.Coherent →
      ∃ w, s.vbs[flat sec.toNat blk.toNat]? = some w ∧
        (sec = 0 ∧ blk = 0 ∨ blk.toNat = tb sec.toNat → w = .ok) ∧
        (acOf s.act sec.toNat blk.toNat = some .corrupt → w = .ok) ∧
        (∀ c, acOf s.act sec.toNat blk.toNat = some (.valid c) → c ∉ chip.vbCodes → w = .ok) ∧
        exec (.rdvbs sec blk) s = .next (s.replied 0#4 (if w = .warning then 1 else 0) []))

/-- spec/44_addressing.md R198. -/
def Obligations.RdclassFollowsRule : Prop :=
  AnswersIllegal 0x8#4 (fun h => h.extractLsb' 0 18 ≠ 0) ∧
  ∀ (s : State) (sec : BitVec 6) (blk : BitVec 4),
    ImageErrors (.rdclass sec blk) s sec.toNat blk.toNat ∧
    (s.payload = [] → LegalAt s sec blk →
      exec (.rdclass sec blk) s = .next (s.replied 0#4
        (if sec = 0 ∧ blk = 0 then 1
         else if blk.toNat = (if sec.toNat < 32 then 3 else 15) then 2 else 0) []))

/-- spec/44_addressing.md R199. -/
def Obligations.RdrowFollowsRule : Prop :=
  AnswersIllegal 0x9#4 (fun h => h.extractLsb' 16 12 ≠ 0) ∧
  ∀ (s : State) (row : BitVec 16),
    (s.payload ≠ [] → exec (.rdrow row) s = .next (s.replied 6#4 0#32 [])) ∧
    (s.payload = [] → s.len = 0 → exec (.rdrow row) s = .next (s.replied 2#4 0#32 [])) ∧
    (s.payload = [] → s.len ≠ 0 → s.len.toNat / 16 ≤ row.toNat →
      exec (.rdrow row) s = .next (s.replied 3#4 0#32 [])) ∧
    (s.payload = [] → s.len ≠ 0 → s.Coherent → row.toNat < s.len.toNat / 16 →
      ∃ r : Word, exec (.rdrow row) s = .next (s.replied 0#4 r []) ∧
        (r.extractLsb' 6 6).toNat = (addr row.toNat).1 ∧
        (r.extractLsb' 2 4).toNat = (addr row.toNat).2 ∧
        r.extractLsb' 0 2 = (match blockClass (addr row.toNat).1 (addr row.toNat).2 with
          | .data => 0 | .manufacturer => 1 | .sectorTrailer => 2) ∧
        r.extractLsb' 12 20 = 0)

/-- spec/44_addressing.md R201, and the fields of spec/10_state.md R36. -/
def Obligations.RdstatFollowsRule : Prop :=
  AnswersIllegal 0xA#4 (fun h => h.extractLsb' 0 28 ≠ 0) ∧
  ∀ s : State,
    (s.payload ≠ [] → exec .rdstat s = .next (s.replied 6#4 0#32 [])) ∧
    (s.payload = [] → ∃ r : Word, exec .rdstat s = .next (s.replied 0#4 r []) ∧
      r.extractLsb' 0 13 = s.len ∧ r.getLsbD 13 = s.dirty ∧
      (r.extractLsb' 14 6).toNat = nsec s.len.toNat ∧
      (r.extractLsb' 20 9).toNat = s.len.toNat / 16 ∧ r.extractLsb' 29 3 = 0) ∧
    (s.payload = [] → s.len = 0 → s.Coherent →
      s.dirty = false ∧ exec .rdstat s = .next (s.replied 0#4 0#32 []))

/-- spec/44_addressing.md R202: the sector and block of a row that RDROW answered with `OK` are never
answered `ERR_ADDRESS`. -/
def Obligations.RowAddressIsNeverAddressError : Prop :=
  ∀ (s t : State) (row : BitVec 16) (r : Response), s.Coherent → s.payload = [] →
    exec (.rdrow row) s = .next t → t.outbox = s.outbox ++ [r] → r.status = 0 →
    ∀ i, (i = .rdblk (r.result.extractLsb' 6 6) (r.result.extractLsb' 2 4) ∨
        i = .rdac (r.result.extractLsb' 6 6) (r.result.extractLsb' 2 4) ∨
        i = .rdvbs (r.result.extractLsb' 6 6) (r.result.extractLsb' 2 4) ∨
        i = .rdclass (r.result.extractLsb' 6 6) (r.result.extractLsb' 2 4) ∨
        (∃ nib val, i = .editnib (r.result.extractLsb' 6 6) (r.result.extractLsb' 2 4) nib val) ∨
        ∃ pos bit, i = .editacb (r.result.extractLsb' 6 6) (r.result.extractLsb' 2 4) pos bit) →
      ∃ t' r', exec i t = .next t' ∧ t'.outbox = t.outbox ++ [r'] ∧ r'.status ≠ 3

/-! ### The stateless commands -/

/-- spec/40_codec.md R114, R112. -/
def Obligations.AcdecFollowsRule : Prop :=
  AnswersIllegal 0xB#4 (fun h => h.extractLsb' 6 22 ≠ 0 ∨ h.extractLsb' 0 4 ≠ 0) ∧
  ∀ (s : State) (slot : BitVec 2),
    (s.payload.length ≠ 4 → exec (.acdec slot) s = .next (s.replied 6#4 0#32 [])) ∧
    (s.payload.length = 4 →
      ((∀ j, getbit s.payload (chip.acmap slot.toFin j).direct =
          !getbit s.payload (chip.acmap slot.toFin j).inverted) →
        exec (.acdec slot) s = .next (s.replied 0#4 (BitVec.ofNat 32
          (4 * (getbit s.payload (chip.acmap slot.toFin 0).direct).toNat +
           2 * (getbit s.payload (chip.acmap slot.toFin 1).direct).toNat +
           (getbit s.payload (chip.acmap slot.toFin 2).direct).toNat)) [])) ∧
      (¬ (∀ j, getbit s.payload (chip.acmap slot.toFin j).direct =
          !getbit s.payload (chip.acmap slot.toFin j).inverted) →
        exec (.acdec slot) s = .next (s.replied 0#4 8#32 [])))

/-- spec/40_codec.md R116, R115. -/
def Obligations.AcencFollowsRule : Prop :=
  AnswersIllegal 0xC#4 (fun h =>
    h.extractLsb' 9 19 ≠ 0 ∨ h.extractLsb' 0 4 ≠ 0 ∨ h.extractLsb' 7 2 = 3#2) ∧
  ∀ (s : State) (slot : BitVec 2) (pos : BitVec 2) (bit : Bool) (j : Fin 3), pos.toNat = j.val →
    (s.payload.length ≠ 4 → exec (.acenc slot pos bit) s = .next (s.replied 6#4 0#32 [])) ∧
    (s.payload.length = 4 → ∃ B, B.length = 4 ∧
      (∀ p : Fin 32, getbit B p =
        if p = (chip.acmap slot.toFin j).direct then bit
        else if p = (chip.acmap slot.toFin j).inverted then !bit
        else getbit s.payload p) ∧
      exec (.acenc slot pos bit) s = .next (s.replied 0#4 0#32 B))

/-- spec/41_valueblock.md R131, R130. -/
def Obligations.VbchkFollowsRule : Prop :=
  AnswersIllegal 0xD#4 (fun h => h.extractLsb' 0 28 ≠ 0) ∧
  ∀ s : State,
    (s.payload.length ≠ 16 → exec .vbchk s = .next (s.replied 6#4 0#32 [])) ∧
    (s.payload.length = 16 →
      (ValueBlockPasses s.payload → exec .vbchk s = .next (s.replied 0#4 0#32 [])) ∧
      (¬ ValueBlockPasses s.payload → exec .vbchk s = .next (s.replied 0#4 1#32 [])))

/-- spec/42_checksum.md R141, R140. -/
def Obligations.BccFollowsRule : Prop :=
  AnswersIllegal 0xE#4 (fun h => h.extractLsb' 16 12 ≠ 0) ∧
  ∀ (s : State) (len : BitVec 16),
    (s.payload.length ≠ len.toNat → exec (.bcc len) s = .next (s.replied 6#4 0#32 [])) ∧
    (s.payload.length = len.toNat →
      exec (.bcc len) s =
        .next (s.replied 0#4 ((s.payload.foldr (fun x acc => x ^^^ acc) 0#8).setWidth 32) []))

/-! ### The component functions -/

/-- spec/40_codec.md R112, for every `ACMAP`: the code of the three direct bits, C1 weighing 4, if
each inverted bit is the complement of its direct bit; else Corrupt. -/
def Obligations.DecodeOfSlotFollowsRule : Prop :=
  ∀ (m : AcMap) (A : List Byte) (k : Fin 4),
    ((∀ j, getbit A (m k j).direct = !getbit A (m k j).inverted) →
      acdec m A k = .valid (BitVec.ofNat 3 (4 * (getbit A (m k 0).direct).toNat +
        2 * (getbit A (m k 1).direct).toNat + (getbit A (m k 2).direct).toNat))) ∧
    (¬ (∀ j, getbit A (m k j).direct = !getbit A (m k j).inverted) → acdec m A k = .corrupt)

/-- spec/40_codec.md R117, laws (a) to (g), for every well-formed `ACMAP`. -/
def Obligations.CodecLawsHoldForEveryAcmap : Prop :=
  ∀ (m : AcMap) (A : List Byte) (k : Fin 4) (j : Fin 3) (v : Bool), m.WellFormed → A.length = 4 →
    (getbit (acenc m A k j v) (m k j).direct = v ∧
      getbit (acenc m A k j v) (m k j).inverted = !v) ∧
    (∀ p, p ≠ (m k j).direct → p ≠ (m k j).inverted →
      getbit (acenc m A k j v) p = getbit A p) ∧
    (∀ k', k' ≠ k → acdec m (acenc m A k j v) k' = acdec m A k') ∧
    (∀ c, acdec m A k = .valid c → ∃ c', acdec m (acenc m A k j v) k = .valid c' ∧
      ∀ j' : Fin 3, c'.getLsbD (2 - j'.val) = if j' = j then v else c.getLsbD (2 - j'.val)) ∧
    (acdec m A k = .corrupt →
      ((∀ j' : Fin 3, j' ≠ j → getbit A (m k j').direct = !getbit A (m k j').inverted) →
        ∃ c', acdec m (acenc m A k j v) k = .valid c') ∧
      (¬ (∀ j' : Fin 3, j' ≠ j → getbit A (m k j').direct = !getbit A (m k j').inverted) →
        acdec m (acenc m A k j v) k = .corrupt)) ∧
    acenc m (acenc m A k j v) k j v = acenc m A k j v ∧
    ∀ k' j' v', (k' ≠ k ∨ j' ≠ j) →
      acenc m (acenc m A k j v) k' j' v' = acenc m (acenc m A k' j' v') k j v

/-- spec/40_codec.md R113: a slot whose six bits are all equal is Corrupt, for every `ACMAP`; so the
all-zero and the all-ones region are Corrupt in all four slots. The slot decodes 000 iff every direct
bit is 0 and every inverted bit 1: with the table this hardware takes (log entry 1), `ff 0f 00` and
any last byte. -/
def Obligations.AllEqualBitsDecodeCorrupt : Prop :=
  (∀ (m : AcMap) (A : List Byte) (k : Fin 4) (v : Bool),
    (∀ j, getbit A (m k j).direct = v ∧ getbit A (m k j).inverted = v) →
    acdec m A k = .corrupt) ∧
  (∀ (m : AcMap) (k : Fin 4), acdec m [0x00, 0x00, 0x00, 0x00] k = .corrupt ∧
    acdec m [0xff, 0xff, 0xff, 0xff] k = .corrupt) ∧
  (∀ (m : AcMap) (A : List Byte) (k : Fin 4), acdec m A k = .valid 0 ↔
    ∀ j, getbit A (m k j).direct = false ∧ getbit A (m k j).inverted = true) ∧
  ∀ (x : Byte) (k : Fin 4), acdec chip.acmap [0xff, 0x0f, 0x00, x] k = .valid 0

/-- spec/40_codec.md R111: the table this hardware takes, as its formulas, and that it is well
formed. The spec marks its entries as from general knowledge (log entry 1). -/
def Obligations.AcmapIsTheDefaultTable : Prop :=
  (∀ k : Fin 4,
    ((chip.acmap k 0).direct.val = 12 + k.val ∧ (chip.acmap k 0).inverted.val = k.val) ∧
    ((chip.acmap k 1).direct.val = 16 + k.val ∧ (chip.acmap k 1).inverted.val = 4 + k.val) ∧
    ((chip.acmap k 2).direct.val = 20 + k.val ∧ (chip.acmap k 2).inverted.val = 8 + k.val)) ∧
  chip.acmap.WellFormed

/-- spec/41_valueblock.md R133: a block passes iff it meets the equations of (a); the all-zero and the
all-`ff` block do not; a passing block with one byte changed, hence with one nibble changed, does
not; every value and every address occur in a passing block. -/
def Obligations.ValueBlockCheckLaws : Prop :=
  (∀ v0 v1 v2 v3 a : Byte, vbcheck [v0, v1, v2, v3, ~~~v0, ~~~v1, ~~~v2, ~~~v3, v0, v1, v2, v3,
    a, ~~~a, a, ~~~a] = .ok) ∧
  (∀ B : List Byte, B.length = 16 → (vbcheck B = .ok ↔ ValueBlockPasses B)) ∧
  vbcheck (List.replicate 16 0x00) = .warning ∧ vbcheck (List.replicate 16 0xff) = .warning ∧
  ∀ (B : List Byte) (i : Nat) (x : Byte), B.length = 16 → i < 16 → vbcheck B = .ok →
    B[i]? ≠ some x → vbcheck (B.set i x) = .warning

/-- spec/42_checksum.md R140: the checksum is the exclusive or of the bytes from start value 0, and
the order of the bytes does not change it; appending it gives checksum 0 (R141). -/
def Obligations.ChecksumLaws : Prop :=
  bcc [] = 0 ∧ (∀ X x, bcc (X ++ [x]) = bcc X ^^^ x) ∧
  (∀ X Y : List Byte, X.Perm Y → bcc X = bcc Y) ∧ (∀ X, bcc (X ++ [bcc X]) = 0) ∧
  ∀ (x : Byte) (n : Nat), bcc (List.replicate (2 * n) x) = 0

/-- spec/10_state.md R26: the geometry, by its formulas. -/
def Obligations.GeometryFollowsFormulas : Prop :=
  nsec 320 = 5 ∧ nsec 1024 = 16 ∧ nsec 4096 = 40 ∧
  (∀ s < 32, nblk s = 4 ∧ first s = 4 * s ∧ tb s = 3) ∧
  (∀ s, 32 ≤ s → nblk s = 16 ∧ first s = 128 + 16 * (s - 32) ∧ tb s = 15) ∧
  (∀ s b, flat s b = first s + b ∧ off s b = 16 * flat s b) ∧
  (∀ len, nblocks len = len / 16) ∧
  (∀ n < 128, addr n = (n / 4, n % 4)) ∧
  ∀ n, 128 ≤ n → addr n = (32 + (n - 128) / 16, (n - 128) % 16)

/-- spec/10_state.md R28: the slot of a block. -/
def Obligations.SlotOfBlockFollowsRule : Prop :=
  ∀ s b, b < nblk s →
    (nblk s = 4 → (slotOf s b).val = b) ∧ (nblk s = 16 → (slotOf s b).val = b / 5) ∧
    (b = tb s → slotOf s b = 3)

/-- spec/44_addressing.md R200: the laws of the map. -/
def Obligations.RowMapLaws : Prop :=
  ∀ len, (len = 320 ∨ len = 1024 ∨ len = 4096) →
    (∀ n < nblocks len, (addr n).1 < nsec len ∧ (addr n).2 < nblk (addr n).1 ∧
      flat (addr n).1 (addr n).2 = n) ∧
    (∀ s b, s < nsec len → b < nblk s → flat s b < nblocks len ∧ addr (flat s b) = (s, b)) ∧
    (∀ n < nblocks len, blockClass (addr n).1 (addr n).2 = .manufacturer ↔ n = 0) ∧
    (∀ n < nblocks len, blockClass (addr n).1 (addr n).2 = .sectorTrailer ↔
      ∃ s < nsec len, n = if s < 32 then 4 * s + 3 else 128 + 16 * (s - 32) + 15) ∧
    (((List.range (nblocks len)).countP
      fun n => blockClass (addr n).1 (addr n).2 == .data) =
        if len = 320 then 14 else if len = 1024 then 47 else 215) ∧
    ((List.range (nblocks len)).countP
      fun n => blockClass (addr n).1 (addr n).2 == .sectorTrailer) = nsec len ∧
    (len = 4096 → nblocks len = 256)

/-- spec/20_memory.md R51: the blocks tile the image: every address below `LEN` is in exactly one
block, and every byte of a block is below `LEN`. -/
def Obligations.BlocksTileTheImage : Prop :=
  ∀ len, (len = 320 ∨ len = 1024 ∨ len = 4096) →
    (∀ s b x, s < nsec len → b < nblk s → x < 16 → off s b + x < len) ∧
    (∀ a < len, ∃ s b x, s < nsec len ∧ b < nblk s ∧ x < 16 ∧ a = off s b + x) ∧
    ∀ s b x s' b' x', s < nsec len → b < nblk s → x < 16 → s' < nsec len → b' < nblk s' →
      x' < 16 → off s b + x = off s' b' + x' → s = s' ∧ b = b' ∧ x = x'
end

