-- ==== Sys2Proof/Laws/State.lean ====
section
/-! SUPPORT. One lemma per field per update of the state, so that no proof unfolds a record update. -/

namespace Sys2Proof.Machine

section answer
variable (st : BitVec 4) (r : Word) (q : List Byte) (s : State)

@[simp] theorem answer_len : (answer st r q s).len = s.len := rfl
@[simp] theorem answer_dirty : (answer st r q s).dirty = s.dirty := rfl
@[simp] theorem answer_img : (answer st r q s).img = s.img := rfl
@[simp] theorem answer_act : (answer st r q s).act = s.act := rfl
@[simp] theorem answer_vbs : (answer st r q s).vbs = s.vbs := rfl
@[simp] theorem answer_payload : (answer st r q s).payload = [] := rfl
@[simp] theorem answer_inbox : (answer st r q s).inbox = s.inbox := rfl
@[simp] theorem answer_outbox : (answer st r q s).outbox = s.outbox ++ [⟨st, r, q⟩] := rfl

theorem answer_eq_replied : answer st r q s = s.replied st r q := rfl

@[simp] theorem replied_len : (s.replied st r q).len = s.len := rfl
@[simp] theorem replied_dirty : (s.replied st r q).dirty = s.dirty := rfl
@[simp] theorem replied_img : (s.replied st r q).img = s.img := rfl
@[simp] theorem replied_act : (s.replied st r q).act = s.act := rfl
@[simp] theorem replied_vbs : (s.replied st r q).vbs = s.vbs := rfl
@[simp] theorem replied_payload : (s.replied st r q).payload = [] := rfl
@[simp] theorem replied_inbox : (s.replied st r q).inbox = s.inbox := rfl
@[simp] theorem replied_outbox : (s.replied st r q).outbox = s.outbox ++ [⟨st, r, q⟩] := rfl

end answer

section reset
@[simp] theorem reset_len : State.reset.len = 0#13 := rfl
@[simp] theorem reset_dirty : State.reset.dirty = false := rfl
@[simp] theorem reset_img : State.reset.img = [] := rfl
@[simp] theorem reset_act : State.reset.act = [] := rfl
@[simp] theorem reset_vbs : State.reset.vbs = [] := rfl
@[simp] theorem reset_payload : State.reset.payload = [] := rfl
@[simp] theorem reset_inbox : State.reset.inbox = [] := rfl
@[simp] theorem reset_outbox : State.reset.outbox = [] := rfl
end reset

section takeCommand
variable (p : List Byte) (rest : List HostInput) (s : State)

@[simp] theorem takeCommand_len : (takeCommand p rest s).len = s.len := rfl
@[simp] theorem takeCommand_dirty : (takeCommand p rest s).dirty = s.dirty := rfl
@[simp] theorem takeCommand_img : (takeCommand p rest s).img = s.img := rfl
@[simp] theorem takeCommand_act : (takeCommand p rest s).act = s.act := rfl
@[simp] theorem takeCommand_vbs : (takeCommand p rest s).vbs = s.vbs := rfl
@[simp] theorem takeCommand_payload : (takeCommand p rest s).payload = p := rfl
@[simp] theorem takeCommand_inbox : (takeCommand p rest s).inbox = rest := rfl
@[simp] theorem takeCommand_outbox : (takeCommand p rest s).outbox = s.outbox := rfl
end takeCommand

section applyReset
variable (rest : List HostInput) (s : State)

@[simp] theorem applyReset_len : (applyReset rest s).len = 0#13 := rfl
@[simp] theorem applyReset_dirty : (applyReset rest s).dirty = false := rfl
@[simp] theorem applyReset_img : (applyReset rest s).img = [] := rfl
@[simp] theorem applyReset_act : (applyReset rest s).act = [] := rfl
@[simp] theorem applyReset_vbs : (applyReset rest s).vbs = [] := rfl
@[simp] theorem applyReset_payload : (applyReset rest s).payload = [] := rfl
@[simp] theorem applyReset_inbox : (applyReset rest s).inbox = rest := rfl
@[simp] theorem applyReset_outbox : (applyReset rest s).outbox = s.outbox := rfl
end applyReset

/-- Coherence does not look at the interface. -/
theorem State.Coherent.of_fields {s t : State} (h : s.Coherent) (hl : t.len = s.len)
    (hd : t.dirty = s.dirty) (hi : t.img = s.img) (ha : t.act = s.act) (hv : t.vbs = s.vbs) :
    t.Coherent := by
  constructor
  · rw [hl]; exact h.len_legal
  · rw [hl, hd]; exact h.dirty_loaded
  · rw [hl, hi]; exact h.img_exact
  · rw [hl, hi, ha, hv]; exact h.tables_eq

end Sys2Proof.Machine
end

