-- ==== Sys2Proof/Laws/Bits.lean ====
section
/-! SUPPORT. Bits of an access region, the codec's functions, nibbles of a byte, the value-block
check and the checksum. -/

namespace Sys2Proof.Machine

/-! ### One bit of a byte -/

theorem getLsbD_setByteBit (x : Byte) (t : Nat) (v : Bool) (ht : t < 8) (u : Nat) :
    (setByteBit x t v).getLsbD u = if u = t then v else x.getLsbD u := by
  unfold setByteBit
  by_cases hu : u < 8
  · cases v
    · simp only [Bool.false_eq_true, if_false, BitVec.getLsbD_and, BitVec.getLsbD_not,
        BitVec.getLsbD_shiftLeft, hu, decide_true, Bool.true_and]
      by_cases h : u = t
      · subst h; simp
      · rw [if_neg h]
        by_cases hlt : u < t
        · simp [hlt]
        · have : u - t ≠ 0 := by omega
          simp [hlt, this, BitVec.getLsbD_one]
    · simp only [if_true, BitVec.getLsbD_or, BitVec.getLsbD_shiftLeft, hu, decide_true,
        Bool.true_and]
      by_cases h : u = t
      · subst h; simp
      · rw [if_neg h]
        by_cases hlt : u < t
        · simp [hlt]
        · have : u - t ≠ 0 := by omega
          simp [hlt, this, BitVec.getLsbD_one]
  · have : u ≠ t := by omega
    rw [if_neg this, BitVec.getLsbD_of_ge _ _ (by omega), BitVec.getLsbD_of_ge _ _ (by omega)]

/-! ### One bit of an access region -/

@[simp] theorem setbit_length (A : List Byte) (p : Fin 32) (v : Bool) :
    (setbit A p v).length = A.length := by simp [setbit]

/-- A bit read after a bit write (spec/20_memory.md R57). -/
theorem getbit_setbit {A : List Byte} (hA : A.length = 4) (p q : Fin 32) (v : Bool) :
    getbit (setbit A p v) q = if q = p then v else getbit A q := by
  unfold getbit setbit
  have hp : p.val / 8 < A.length := by omega
  simp only [List.getD_eq_getElem?_getD, List.getElem?_set]
  by_cases hd : p.val / 8 = q.val / 8
  · rw [if_pos hd, if_pos hp, Option.getD_some, getLsbD_setByteBit _ _ _ (by omega)]
    by_cases he : q = p
    · subst he; simp
    · rw [if_neg he, if_neg (by intro h; apply he; apply Fin.ext; omega), hd]
  · rw [if_neg hd, if_neg (by rintro rfl; exact hd rfl)]

/-- A region is what its 32 bits are. -/
theorem region_ext {A B : List Byte} (hA : A.length = 4) (hB : B.length = 4)
    (h : ∀ p, getbit A p = getbit B p) : A = B := by
  apply List.ext_getElem (by omega)
  intro q hq hq'
  apply BitVec.eq_of_getLsbD_eq
  intro t ht
  have := h ⟨8 * q + t, by omega⟩
  simp only [getbit, show (8 * q + t) / 8 = q by omega, show (8 * q + t) % 8 = t by omega] at this
  simpa [List.getD_eq_getElem?_getD, hq, hq'] using this

/-! ### The codec (spec/40_codec.md) -/

@[simp] theorem acenc_length (m : AcMap) (A : List Byte) (k : Fin 4) (j : Fin 3) (v : Bool) :
    (acenc m A k j v).length = A.length := by simp [acenc]

/-- Every bit of an encoded region (spec/40_codec.md R117 a, b). -/
theorem getbit_acenc {m : AcMap} {A : List Byte} (hA : A.length = 4) (k : Fin 4) (j : Fin 3)
    (v : Bool) (q : Fin 32) :
    getbit (acenc m A k j v) q =
      if q = (m k j).inverted then !v
      else if q = (m k j).direct then v
      else getbit A q := by
  unfold acenc
  rw [getbit_setbit (by simpa using hA), getbit_setbit hA]

section laws
variable {m : AcMap} (hm : m.WellFormed) {A : List Byte} (hA : A.length = 4)
include hm hA

theorem getbit_acenc_direct (k : Fin 4) (j : Fin 3) (v : Bool) (k' : Fin 4) (j' : Fin 3) :
    getbit (acenc m A k j v) (m k' j').direct =
      if k' = k ∧ j' = j then v else getbit A (m k' j').direct := by
  rw [getbit_acenc hA, if_neg (hm.direct_ne_inverted k' j' k j)]
  by_cases h : k' = k ∧ j' = j
  · obtain ⟨rfl, rfl⟩ := h; simp
  · rw [if_neg h, if_neg fun e => h (hm.direct_inj _ _ _ _ e)]

theorem getbit_acenc_inverted (k : Fin 4) (j : Fin 3) (v : Bool) (k' : Fin 4) (j' : Fin 3) :
    getbit (acenc m A k j v) (m k' j').inverted =
      if k' = k ∧ j' = j then !v else getbit A (m k' j').inverted := by
  rw [getbit_acenc hA]
  by_cases h : k' = k ∧ j' = j
  · obtain ⟨rfl, rfl⟩ := h; simp
  · rw [if_neg fun e => h (hm.inverted_inj _ _ _ _ e),
      if_neg fun e => hm.direct_ne_inverted k j k' j' e.symm, if_neg h]

/-- Another slot decodes as before (spec/40_codec.md R117 c). -/
theorem acdec_acenc_other (k : Fin 4) (j : Fin 3) (v : Bool) {k' : Fin 4} (h : k' ≠ k) :
    acdec m (acenc m A k j v) k' = acdec m A k' := by
  simp only [acdec, getbit_acenc_direct hm hA, getbit_acenc_inverted hm hA, h, false_and, if_false]

end laws

/-- The pair of bit `j` of slot `k` is consistent (spec/40_codec.md R112). -/
def pairOk (m : AcMap) (A : List Byte) (k : Fin 4) (j : Fin 3) : Bool :=
  getbit A (m k j).direct == !getbit A (m k j).inverted

/-- The three direct bits of a slot as a code, C1 the most significant (spec/00_scope.md R14). -/
def directCode (m : AcMap) (A : List Byte) (k : Fin 4) : BitVec 3 :=
  BitVec.ofBool (getbit A (m k 0).direct) ++ BitVec.ofBool (getbit A (m k 1).direct) ++
    BitVec.ofBool (getbit A (m k 2).direct)

theorem acdec_eq (m : AcMap) (A : List Byte) (k : Fin 4) :
    acdec m A k =
      if (pairOk m A k 0 && pairOk m A k 1 && pairOk m A k 2) = true then
        .valid (directCode m A k)
      else .corrupt := by
  unfold acdec pairOk directCode
  simp only [Bool.and_eq_true, beq_iff_eq, and_assoc]

/-- The default table is well formed (spec/40_codec.md R111). -/
theorem defaultAcmap_wf : defaultAcmap.WellFormed := by
  constructor <;> decide

/-- The table this hardware takes is well formed. -/
theorem chip_wf : chip.acmap.WellFormed := defaultAcmap_wf

/-- The default table names no bit of trailer byte 9 (spec/40_codec.md R111). -/
theorem chip_pos_lt : ∀ (k : Fin 4) (j : Fin 3),
    (chip.acmap k j).direct.val / 8 ≤ 2 ∧ (chip.acmap k j).inverted.val / 8 ≤ 2 := by decide

theorem acdec_of_pairs {m : AcMap} {A : List Byte} {k : Fin 4}
    (h : ∀ j, getbit A (m k j).direct = !getbit A (m k j).inverted) :
    acdec m A k = .valid (directCode m A k) := by
  unfold acdec; rw [if_pos ⟨h 0, h 1, h 2⟩]; rfl

/-- A slot is valid iff its three pairs are consistent (spec/40_codec.md R112). -/
theorem acdec_valid_iff {m : AcMap} {A : List Byte} {k : Fin 4} :
    (∃ c, acdec m A k = .valid c) ↔ ∀ j, getbit A (m k j).direct = !getbit A (m k j).inverted := by
  refine ⟨?_, fun h => ⟨_, acdec_of_pairs h⟩⟩
  rintro ⟨c, h⟩
  unfold acdec at h
  split at h
  · next hh => exact fun j => match j with
      | 0 => hh.1
      | 1 => hh.2.1
      | 2 => hh.2.2
  · cases h

/-- Bit `C(j+1)` of a code is the direct bit `j` (spec/00_scope.md R14). -/
theorem getLsbD_directCode (m : AcMap) (A : List Byte) (k : Fin 4) (j : Fin 3) :
    (directCode m A k).getLsbD (2 - j.val) = getbit A (m k j).direct := by
  have h : ∀ a b c : Bool,
      (BitVec.ofBool a ++ BitVec.ofBool b ++ BitVec.ofBool c).getLsbD 2 = a ∧
      (BitVec.ofBool a ++ BitVec.ofBool b ++ BitVec.ofBool c).getLsbD 1 = b ∧
      (BitVec.ofBool a ++ BitVec.ofBool b ++ BitVec.ofBool c).getLsbD 0 = c := by decide
  match j with
  | 0 => exact (h _ _ _).1
  | 1 => exact (h _ _ _).2.1
  | 2 => exact (h _ _ _).2.2

/-- Encoding the same bit again changes nothing (spec/40_codec.md R117 f). -/
theorem acenc_idem (m : AcMap) {A : List Byte} (hA : A.length = 4) (k : Fin 4) (j : Fin 3)
    (v : Bool) : acenc m (acenc m A k j v) k j v = acenc m A k j v := by
  refine region_ext (by simpa using hA) (by simpa using hA) fun p => ?_
  rw [getbit_acenc (by simpa using hA), getbit_acenc hA]
  split
  · rfl
  · split <;> rfl

/-! ### Nibbles -/

theorem setNibble_idem (old : Byte) (nib : Nat) (val : BitVec 4) :
    setNibble (setNibble old nib val) nib val = setNibble old nib val := by
  unfold setNibble
  split <;> (revert old val; decide +kernel)


theorem setNibble_even (old : Byte) {nib : Nat} (val : BitVec 4) (h : nib % 2 = 0) :
    (setNibble old nib val).extractLsb' 4 4 = val ∧
      (setNibble old nib val).extractLsb' 0 4 = old.extractLsb' 0 4 := by
  unfold setNibble
  rw [if_pos h]
  revert old val
  decide +kernel

theorem setNibble_odd (old : Byte) {nib : Nat} (val : BitVec 4) (h : ¬ nib % 2 = 0) :
    (setNibble old nib val).extractLsb' 0 4 = val ∧
      (setNibble old nib val).extractLsb' 4 4 = old.extractLsb' 4 4 := by
  unfold setNibble
  rw [if_neg h]
  revert old val
  decide +kernel

/-! ### The checksum -/

theorem bcc_foldl (X : List Byte) (c : Byte) :
    X.foldl (fun acc x => acc ^^^ x) c = c ^^^ bcc X := by
  induction X generalizing c with
  | nil => simp [bcc]
  | cons x X ih =>
    simp only [bcc, List.foldl_cons]
    rw [ih (c ^^^ x), ih (0#8 ^^^ x)]
    simp [BitVec.xor_assoc]

@[simp] theorem bcc_nil : bcc [] = 0#8 := rfl

theorem bcc_cons (x : Byte) (X : List Byte) : bcc (x :: X) = x ^^^ bcc X := by
  rw [bcc, List.foldl_cons, bcc_foldl]; simp

theorem bcc_append (X Y : List Byte) : bcc (X ++ Y) = bcc X ^^^ bcc Y := by
  induction X with
  | nil => simp
  | cons x X ih => simp [bcc_cons, ih, BitVec.xor_assoc]

end Sys2Proof.Machine
end

