-- ==== Sys2Proof/Laws/Geometry.lean ====
section
/-! SUPPORT. The geometry: `flat` and `addr` are inverse, blocks lie inside the image and do not
overlap, and the access region of a trailer lies inside its block. -/

namespace Sys2Proof.Machine

/-- The legal image lengths, 0 for no image. -/
def LegalLen (len : Nat) : Prop := len = 0 ∨ len = 320 ∨ len = 1024 ∨ len = 4096

theorem flat_eq (s b : Nat) : flat s b = (if s < 32 then 4 * s else 128 + 16 * (s - 32)) + b := rfl

theorem off_eq (s b : Nat) :
    off s b = 16 * ((if s < 32 then 4 * s else 128 + 16 * (s - 32)) + b) := rfl

theorem nsec_pos_legal {len s : Nat} (h : s < nsec len) :
    len = 320 ∧ s < 5 ∨ len = 1024 ∧ s < 16 ∨ len = 4096 ∧ s < 40 := by
  unfold nsec at h; split at h
  · omega
  · split at h
    · omega
    · split at h <;> omega

/-- A legal block has a legal flat number. -/
theorem flat_lt {len s b : Nat} (hs : s < nsec len) (hb : b < nblk s) :
    flat s b < nblocks len := by
  have := nsec_pos_legal hs
  unfold nblk at hb; unfold nblocks; rw [flat_eq]
  split at hb <;> split <;> omega

theorem off_lt {len s b : Nat} (hs : s < nsec len) (hb : b < nblk s) : off s b + 16 ≤ len := by
  have := flat_lt hs hb
  unfold nblocks at this; unfold off; omega

/-- `addr(flat(s,b)) = (s,b)` (spec/44_addressing.md R200 d). -/
theorem addr_flat {len s b : Nat} (hs : s < nsec len) (hb : b < nblk s) :
    addr (flat s b) = (s, b) := by
  have := nsec_pos_legal hs
  unfold nblk at hb; unfold addr; rw [flat_eq]
  split at hb <;> split <;> split <;> simp only [Prod.mk.injEq] <;> omega

theorem nblocks_legal {len n : Nat} (hl : LegalLen len) (h : n < nblocks len) :
    len = 320 ∧ n < 20 ∨ len = 1024 ∧ n < 64 ∨ len = 4096 ∧ n < 256 := by
  unfold nblocks at h; unfold LegalLen at hl; omega

/-- A row number is the flat number of a legal block (spec/44_addressing.md R200 d). -/
theorem addr_legal {len n : Nat} (hl : LegalLen len) (h : n < nblocks len) :
    (addr n).1 < nsec len ∧ (addr n).2 < nblk (addr n).1 ∧ flat (addr n).1 (addr n).2 = n := by
  have := nblocks_legal hl h
  unfold addr
  split
  · refine ⟨?_, ?_, ?_⟩
    · rcases this with ⟨rfl, _⟩ | ⟨rfl, _⟩ | ⟨rfl, _⟩ <;> simp [nsec] <;> omega
    · simp only [nblk]; split <;> omega
    · simp only [flat_eq]; split <;> omega
  · refine ⟨?_, ?_, ?_⟩
    · rcases this with ⟨rfl, _⟩ | ⟨rfl, _⟩ | ⟨rfl, _⟩ <;> simp [nsec] <;> omega
    · simp only [nblk]; split <;> omega
    · simp only [flat_eq]; split <;> omega

theorem tb_lt (s : Nat) : tb s < nblk s := by unfold tb nblk; split <;> omega

/-- The access region lies inside the image. -/
theorem accessOff_lt {len s : Nat} (hs : s < nsec len) : accessOff s + 4 ≤ len := by
  have := off_lt hs (tb_lt s); unfold accessOff; omega

/-- Two different legal blocks have different flat numbers. -/
theorem flat_inj {len s b s' b' : Nat} (hs : s < nsec len) (hb : b < nblk s)
    (hs' : s' < nsec len) (hb' : b' < nblk s') (h : flat s b = flat s' b') : s = s' ∧ b = b' := by
  have h1 := addr_flat hs hb
  have h2 := addr_flat hs' hb'
  rw [h, h2] at h1
  simpa [eq_comm] using h1

/-- An address of one block is in no other (spec/20_memory.md R51). -/
theorem off_disjoint {len s b s' b' : Nat} (hs : s < nsec len) (hb : b < nblk s)
    (hs' : s' < nsec len) (hb' : b' < nblk s') {x y : Nat} (hx : x < 16) (hy : y < 16)
    (h : off s b + x = off s' b' + y) : s = s' ∧ b = b' ∧ x = y := by
  have : flat s b = flat s' b' := by unfold off at h; omega
  obtain ⟨rfl, rfl⟩ := flat_inj hs hb hs' hb' this
  exact ⟨rfl, rfl, by omega⟩

theorem nblk_four_or (s : Nat) : nblk s = 4 ∧ s < 32 ∨ nblk s = 16 ∧ 32 ≤ s := by
  unfold nblk; split <;> omega

/-- The slot of a legal block (spec/10_state.md R28). -/
theorem slotOf_val {s b : Nat} (hb : b < nblk s) :
    (slotOf s b).val = if s < 32 then b else b / 5 := by
  unfold slotOf
  rcases nblk_four_or s with ⟨h, hs⟩ | ⟨h, hs⟩ <;> rw [h] at hb
  · rw [if_pos h, if_pos hs]; simp only [Fin.ofNat]; omega
  · rw [if_neg (by omega), if_neg (by omega)]; simp only [Fin.ofNat]; omega

/-- The trailer has slot 3 (spec/10_state.md R28). -/
theorem slotOf_tb (s : Nat) : slotOf s (tb s) = 3 := by
  apply Fin.ext
  rw [slotOf_val (tb_lt s)]
  unfold tb nblk; split <;> simp

/-- An address of a block other than the trailer of `s` is outside that trailer's access region. -/
theorem access_disjoint {len s s' b' c : Nat} (hs : s < nsec len) (hs' : s' < nsec len)
    (hb' : b' < nblk s') (h1 : off s' b' ≤ c) (h2 : c < off s' b' + 16)
    (hne : ¬ (s' = s ∧ b' = tb s)) : c < accessOff s ∨ accessOff s + 4 ≤ c := by
  by_contra hcon
  have := off_disjoint hs' hb' hs (tb_lt s) (x := c - off s' b') (y := c - off s (tb s))
    (by omega) (by unfold accessOff at *; omega) (by unfold accessOff at *; omega)
  exact hne ⟨this.1, this.2.1⟩

end Sys2Proof.Machine
end

