-- ==== Sys2Proof/Laws/Memory.lean ====
section
/-! SUPPORT. The laws of the image store: a read after a write, the multi-byte accesses, the store a
dump leaves, and the canonical form. -/

namespace Sys2Proof.Machine

@[simp] theorem read_nil (a : Nat) : Memory.read [] a = none := rfl

theorem read_cons (x : Nat) (b : Byte) (m : Memory) (a : Nat) :
    Memory.read ((x, b) :: m) a = if x = a then some b else Memory.read m a := rfl

/-- A read after a write, at any address. -/
theorem read_write (m : Memory) (a : Nat) (b : Byte) (c : Nat) :
    Memory.read (Memory.write m a b) c = if c = a then some b else Memory.read m c := by
  induction m with
  | nil => simp [Memory.write, read_cons, eq_comm]
  | cons h m ih =>
    obtain ⟨x, d⟩ := h
    simp only [Memory.write]
    split
    · simp [read_cons, eq_comm]
    · split
      · next he =>
        subst he
        simp only [read_cons, eq_comm]
        split <;> rfl
      · next hne =>
        simp only [read_cons, ih]
        split
        · next hx =>
          subst hx
          rw [if_neg (fun h => hne h.symm)]
        · rfl

theorem read_write_same (m : Memory) (a : Nat) (b : Byte) :
    Memory.read (Memory.write m a b) a = some b := by simp [read_write]

theorem read_write_other {a c : Nat} (m : Memory) (b : Byte) (h : c ≠ a) :
    Memory.read (Memory.write m a b) c = Memory.read m c := by simp [read_write, h]

/-- A write at a listed address keeps the list of addresses. -/
theorem write_addresses {m : Memory} {a : Nat} (b : Byte) (hs : (m.map Prod.fst).Pairwise (· < ·))
    (ha : a ∈ m.map Prod.fst) : (Memory.write m a b).map Prod.fst = m.map Prod.fst := by
  induction m with
  | nil => simp at ha
  | cons h m ih =>
    obtain ⟨x, d⟩ := h
    simp only [List.map_cons, List.pairwise_cons] at hs
    simp only [List.map_cons, List.mem_cons] at ha
    simp only [Memory.write]
    split
    · next hlt =>
      rcases ha with rfl | ha
      · omega
      · have := hs.1 _ ha
        omega
    · split
      · next he => simp [he]
      · next hne =>
        rcases ha with rfl | ha
        · exact absurd rfl hne
        · simp [ih hs.2 ha]

/-- A read of a memory whose addresses are known: there is a value exactly at those. -/
theorem read_isSome (m : Memory) (a : Nat) :
    (Memory.read m a).isSome = true ↔ a ∈ m.map Prod.fst := by
  induction m with
  | nil => simp
  | cons h m ih =>
    obtain ⟨x, d⟩ := h
    simp only [read_cons, List.map_cons, List.mem_cons]
    split
    · next he => simp [he]
    · next hne => rw [ih]; exact ⟨Or.inr, fun h => h.resolve_left fun e => hne e.symm⟩

/-! ### Multi-byte reads and writes -/

@[simp] theorem memRead_zero (m : Memory) (a : Nat) : memRead m a 0 = some [] := rfl

/-- What a multi-byte read answers: the bytes in order, each with a value. -/
theorem memRead_eq_some {m : Memory} {a n : Nat} {X : List Byte} :
    memRead m a n = some X ↔ X.length = n ∧ ∀ i < n, Memory.read m (a + i) = X[i]? := by
  induction n generalizing a X with
  | zero => cases X <;> simp [memRead]
  | succ n ih =>
    cases X with
    | nil =>
      simp only [memRead, List.length_nil]
      constructor
      · intro h; split at h <;> simp at h
      · rintro ⟨h, -⟩; omega
    | cons b X =>
      simp only [memRead, List.length_cons]
      constructor
      · intro h
        split at h
        · next c Y hc hY =>
          simp only [Option.some.injEq, List.cons.injEq] at h
          obtain ⟨rfl, rfl⟩ := h
          obtain ⟨hl, hr⟩ := ih.1 hY
          refine ⟨by omega, fun i hi => ?_⟩
          cases i with
          | zero => simpa using hc
          | succ i =>
            have := hr i (by omega)
            rw [show a + (i + 1) = a + 1 + i by omega, this]
            simp
        · simp at h
      · rintro ⟨hl, hr⟩
        have h0 := hr 0 (by omega)
        have hX : memRead m (a + 1) n = some X := ih.2 ⟨by omega, fun i hi => by
          have := hr (i + 1) (by omega)
          rw [show a + (i + 1) = a + 1 + i by omega] at this
          simpa using this⟩
        simp only [Nat.add_zero, List.getElem?_cons_zero] at h0
        simp [h0, hX]

theorem memRead_length {m : Memory} {a n : Nat} {X : List Byte} (h : memRead m a n = some X) :
    X.length = n := (memRead_eq_some.1 h).1

theorem memRead_getElem {m : Memory} {a n : Nat} {X : List Byte} (h : memRead m a n = some X)
    {i : Nat} (hi : i < n) : Memory.read m (a + i) = X[i]? := (memRead_eq_some.1 h).2 i hi

/-- A multi-byte read answers when each element holds a value. -/
theorem memRead_isSome {m : Memory} {a n : Nat}
    (h : ∀ i < n, (Memory.read m (a + i)).isSome = true) : ∃ X, memRead m a n = some X := by
  induction n generalizing a with
  | zero => exact ⟨[], rfl⟩
  | succ n ih =>
    obtain ⟨b, hb⟩ := Option.isSome_iff_exists.1 (by simpa using h 0 (by omega))
    obtain ⟨X, hX⟩ := ih (a := a + 1) fun i hi => by
      have := h (i + 1) (by omega)
      rwa [show a + (i + 1) = a + 1 + i by omega] at this
    exact ⟨b :: X, by simp [memRead, hb, hX]⟩

/-- Two memories that agree on the bytes read give the same bytes. -/
theorem memRead_congr {m m' : Memory} {a n : Nat}
    (h : ∀ i < n, Memory.read m' (a + i) = Memory.read m (a + i)) :
    memRead m' a n = memRead m a n := by
  induction n generalizing a with
  | zero => rfl
  | succ n ih =>
    have h0 := h 0 (by omega)
    have ht : memRead m' (a + 1) n = memRead m (a + 1) n := ih fun i hi => by
      have := h (i + 1) (by omega)
      rwa [show a + (i + 1) = a + 1 + i by omega] at this
    simp only [Nat.add_zero] at h0
    simp only [memRead, h0, ht]

/-- A read after a multi-byte write, at any address. -/
theorem read_memWrite (m : Memory) (a : Nat) (X : List Byte) (c : Nat) :
    Memory.read (memWrite m a X) c =
      if a ≤ c ∧ c < a + X.length then X[c - a]? else Memory.read m c := by
  induction X generalizing m a with
  | nil => simp only [memWrite, List.length_nil]; rw [if_neg (by omega)]
  | cons b X ih =>
    simp only [memWrite, ih, read_write, List.length_cons]
    by_cases h : c = a
    · subst h
      rw [if_neg (by omega), if_pos rfl, if_pos (by omega)]
      simp
    · by_cases h1 : a + 1 ≤ c ∧ c < a + 1 + X.length
      · rw [if_pos h1, if_pos (by omega)]
        rw [show c - a = (c - (a + 1)) + 1 by omega]
        simp
      · rw [if_neg h1, if_neg h, if_neg (by omega)]

theorem memRead_memWrite_same (m : Memory) (a : Nat) (X : List Byte) :
    memRead (memWrite m a X) a X.length = some X :=
  memRead_eq_some.2 ⟨rfl, fun i hi => by
    rw [read_memWrite, if_pos (by omega)]; congr 1; omega⟩

theorem memWrite_addresses {m : Memory} {a : Nat} {X : List Byte}
    (hs : (m.map Prod.fst).Pairwise (· < ·)) (ha : ∀ i < X.length, a + i ∈ m.map Prod.fst) :
    (memWrite m a X).map Prod.fst = m.map Prod.fst := by
  induction X generalizing m a with
  | nil => rfl
  | cons b X ih =>
    have h0 : (Memory.write m a b).map Prod.fst = m.map Prod.fst :=
      write_addresses b hs (by simpa using ha 0 (by simp))
    simp only [memWrite]
    rw [ih (by rwa [h0]) (fun i hi => ?_), h0]
    rw [h0, show a + 1 + i = a + (i + 1) by omega]
    exact ha (i + 1) (by simp; omega)

/-! ### The store a dump leaves -/

theorem imageOf_addresses (a : Nat) (X : List Byte) :
    (imageOf a X).map Prod.fst = List.range' a X.length := by
  induction X generalizing a with
  | nil => rfl
  | cons b X ih => simp [imageOf, ih, List.range'_succ]

theorem imageOf_zero_addresses (X : List Byte) :
    (imageOf 0 X).map Prod.fst = List.range X.length := by
  rw [imageOf_addresses, List.range_eq_range']

theorem read_imageOf (a : Nat) (X : List Byte) (c : Nat) :
    Memory.read (imageOf a X) c = if a ≤ c then X[c - a]? else none := by
  induction X generalizing a with
  | nil => simp [imageOf]
  | cons b X ih =>
    simp only [imageOf, read_cons, ih]
    by_cases h : a = c
    · subst h; simp
    · rw [if_neg h]
      by_cases h1 : a + 1 ≤ c
      · rw [if_pos h1, if_pos (by omega), show c - a = (c - (a + 1)) + 1 by omega]; simp
      · rw [if_neg h1, if_neg (by omega)]

theorem read_imageOf_zero (X : List Byte) (c : Nat) : Memory.read (imageOf 0 X) c = X[c]? := by
  simp [read_imageOf]

theorem memRead_imageOf (X : List Byte) : memRead (imageOf 0 X) 0 X.length = some X :=
  memRead_eq_some.2 ⟨rfl, fun i _ => by simp [read_imageOf_zero]⟩

/-- A dump laid out at once is the dump written byte by byte (spec/00_scope.md R13). -/
theorem imageOf_eq_memWrite (X : List Byte) : imageOf 0 X = memWrite [] 0 X := by
  suffices h : ∀ (X : List Byte) (a : Nat) (m : Memory), (∀ c ∈ m.map Prod.fst, c < a) →
      memWrite m a X = m ++ imageOf a X by simpa using (h X 0 [] (by simp)).symm
  intro X
  induction X with
  | nil => intro a m _; simp [memWrite, imageOf]
  | cons b X ih =>
    intro a m hm
    have hw : Memory.write m a b = m ++ [(a, b)] := by
      clear ih
      induction m with
      | nil => rfl
      | cons h m ihm =>
        obtain ⟨x, d⟩ := h
        have hx : x < a := hm x (by simp)
        simp only [Memory.write]
        rw [if_neg (by omega), if_neg (by omega), ihm fun c hc => hm c (by simp [hc])]
        rfl
    simp only [memWrite, hw, imageOf]
    rw [ih (a + 1) (m ++ [(a, b)]) (by
      intro c hc
      simp only [List.map_append, List.mem_append, List.map_cons, List.map_nil,
        List.mem_singleton] at hc
      rcases hc with hc | rfl
      · have := hm c hc; omega
      · omega)]
    simp

/-! ### The canonical form -/

/-- The canonical form is that the addresses strictly rise: an entry always holds a value. -/
theorem wf_iff (m : Memory) : Memory.wf m = true ↔ (m.map Prod.fst).Pairwise (· < ·) := by
  induction m with
  | nil => simp [Memory.wf]
  | cons h m ih =>
    obtain ⟨a, b⟩ := h
    cases m with
    | nil => simp [Memory.wf, Memory.unlisted]
    | cons h' m =>
      obtain ⟨c, d⟩ := h'
      rw [Memory.wf]
      simp only [Memory.unlisted, Bool.and_eq_true, bne_iff_ne, ne_eq, reduceCtorEq,
        not_false_eq_true, true_and, decide_eq_true_eq, ih]
      simp only [List.map_cons, List.pairwise_cons, List.mem_cons, forall_eq_or_imp]
      constructor
      · rintro ⟨hac, hc, hm⟩
        exact ⟨⟨hac, fun x hx => lt_trans hac (hc x hx)⟩, hc, hm⟩
      · rintro ⟨⟨hac, -⟩, hc, hm⟩
        exact ⟨hac, hc, hm⟩

/-- A write at any address keeps the canonical form. -/
theorem write_wf {m : Memory} (a : Nat) (b : Byte) (h : Memory.wf m = true) :
    Memory.wf (Memory.write m a b) = true := by
  rw [wf_iff] at h ⊢
  have mem : ∀ (m : Memory) (c : Nat), c ∈ (Memory.write m a b).map Prod.fst →
      c = a ∨ c ∈ m.map Prod.fst := by
    intro m c hc
    rw [← read_isSome, read_write] at hc
    by_cases h : c = a
    · exact .inl h
    · rw [if_neg h, read_isSome] at hc; exact .inr hc
  induction m with
  | nil => simp [Memory.write]
  | cons hd m ih =>
    obtain ⟨x, d⟩ := hd
    simp only [List.map_cons, List.pairwise_cons] at h
    simp only [Memory.write]
    split
    · next hlt =>
      simp only [List.map_cons, List.pairwise_cons, List.mem_cons, forall_eq_or_imp]
      exact ⟨⟨hlt, fun c hc => lt_trans hlt (h.1 c hc)⟩, h⟩
    · split
      · next he => subst he; simpa using h
      · simp only [List.map_cons, List.pairwise_cons]
        refine ⟨fun c hc => ?_, ih h.2⟩
        rcases mem m c hc with rfl | hc
        · omega
        · exact h.1 c hc

theorem memWrite_wf {m : Memory} (a : Nat) (X : List Byte) (h : Memory.wf m = true) :
    Memory.wf (memWrite m a X) = true := by
  induction X generalizing m a with
  | nil => exact h
  | cons b X ih => exact ih (a + 1) (write_wf a b h)

theorem imageOf_wf (X : List Byte) : Memory.wf (imageOf 0 X) = true := by
  rw [wf_iff, imageOf_zero_addresses]; exact List.pairwise_lt_range

/-- Reset memory is in canonical form. -/
theorem reset_wf : Memory.wf State.reset.img = true := rfl

/-! ### A store that holds a value exactly below a length -/

theorem wf_of_exact {m : Memory} {len : Nat} (h : m.map Prod.fst = List.range len) :
    Memory.wf m = true := by rw [wf_iff, h]; exact List.pairwise_lt_range

theorem read_isSome_of_exact {m : Memory} {len a : Nat} (h : m.map Prod.fst = List.range len) :
    (Memory.read m a).isSome = true ↔ a < len := by rw [read_isSome, h, List.mem_range]

theorem memRead_of_exact {m : Memory} {len a n : Nat} (h : m.map Prod.fst = List.range len)
    (hn : a + n ≤ len) : ∃ X, memRead m a n = some X :=
  memRead_isSome fun i hi => (read_isSome_of_exact h).2 (by omega)

theorem write_exact {m : Memory} {len a : Nat} (b : Byte) (h : m.map Prod.fst = List.range len)
    (ha : a < len) : (Memory.write m a b).map Prod.fst = List.range len := by
  rw [write_addresses b (by rw [h]; exact List.pairwise_lt_range) (by rw [h]; simpa using ha), h]

theorem memWrite_exact {m : Memory} {len a : Nat} {X : List Byte}
    (h : m.map Prod.fst = List.range len) (ha : a + X.length ≤ len) :
    (memWrite m a X).map Prod.fst = List.range len := by
  rw [memWrite_addresses (by rw [h]; exact List.pairwise_lt_range)
    (fun i hi => by rw [h]; simp; omega), h]

/-- The store is what its reads are. -/
theorem exact_ext {m m' : Memory} {len : Nat} (h : m.map Prod.fst = List.range len)
    (h' : m'.map Prod.fst = List.range len) (hr : ∀ a, Memory.read m a = Memory.read m' a) :
    m = m' := by
  have key : ∀ (m m' : Memory), m.map Prod.fst = m'.map Prod.fst →
      (m.map Prod.fst).Pairwise (· < ·) → (∀ a, Memory.read m a = Memory.read m' a) → m = m' := by
    intro m
    induction m with
    | nil => intro m' hf _ _; simpa using hf.symm
    | cons c m ih =>
      intro m' hf hs hr
      cases m' with
      | nil => simp at hf
      | cons c' m' =>
        obtain ⟨x, b⟩ := c
        obtain ⟨y, d⟩ := c'
        simp only [List.map_cons, List.cons.injEq] at hf
        obtain ⟨rfl, hf⟩ := hf
        simp only [List.map_cons, List.pairwise_cons] at hs
        have h0 := hr x
        simp only [read_cons, if_pos, Option.some.injEq] at h0
        subst h0
        rw [ih m' hf hs.2 fun a => ?_]
        have ha := hr a
        simp only [read_cons] at ha
        by_cases he : x = a
        · subst he
          have n1 : ¬ (Memory.read m x).isSome = true := by
            rw [read_isSome]; intro hx; exact absurd (hs.1 x hx) (by omega)
          have n2 : ¬ (Memory.read m' x).isSome = true := by
            rw [read_isSome, ← hf]; intro hx; exact absurd (hs.1 x hx) (by omega)
          simp only [Bool.not_eq_true, Option.isSome_eq_false_iff, Option.isNone_iff_eq_none] at n1 n2
          rw [n1, n2]
        · simpa [he] using ha
  exact key m m' (h.trans h'.symm) (by rw [h]; exact List.pairwise_lt_range) hr

end Sys2Proof.Machine
end

