-- ==== Sys2Proof/Laws/Tables.lean ====
section
/-! SUPPORT. The two derived tables: what the rebuild computes, entry by entry, and that it answers
for every image of a legal length. -/

namespace Sys2Proof.Machine

theorem allSome_eq_some {α : Type} {l : List (Option α)} {r : List α} :
    allSome l = some r ↔ l = r.map some := by
  induction l generalizing r with
  | nil => cases r <;> simp [allSome]
  | cons x l ih =>
    cases x with
    | none => cases r <;> simp [allSome]
    | some x =>
      simp only [allSome]
      cases h : allSome l with
      | none =>
        simp only [reduceCtorEq, false_iff]
        cases r with
        | nil => simp
        | cons y r =>
          simp only [List.map_cons, List.cons.injEq, not_and]
          intro _ hl
          have := ih.2 hl
          rw [h] at this
          cases this
      | some xs =>
        have hl := ih.1 h
        cases r with
        | nil => simp
        | cons y r =>
          simp only [Option.some.injEq, List.cons.injEq, List.map_cons, hl]
          constructor
          · rintro ⟨rfl, rfl⟩; exact ⟨rfl, rfl⟩
          · rintro ⟨rfl, h2⟩
            exact ⟨rfl, List.map_injective_iff.2 (Option.some_injective α) h2⟩

/-- The values of a function on 0 to n-1, if each is there. -/
theorem allSome_range {α : Type} {n : Nat} {f : Nat → Option α} {r : List α} :
    allSome ((List.range n).map f) = some r ↔ r.length = n ∧ ∀ i < n, f i = r[i]? := by
  rw [allSome_eq_some]
  constructor
  · intro h
    have hl : r.length = n := by simpa using (congrArg List.length h).symm
    refine ⟨hl, fun i hi => ?_⟩
    have := congrArg (·[i]?) h
    simp only [List.getElem?_map, List.getElem?_range hi, Option.map_some] at this
    rw [List.getElem?_eq_getElem (by omega)] at this ⊢
    simpa using this
  · rintro ⟨hl, hf⟩
    apply List.ext_getElem (by simp [hl])
    intro i hi hi'
    simp only [List.length_map, List.length_range] at hi
    have := hf i hi
    rw [List.getElem?_eq_getElem (by omega)] at this
    simpa using this

theorem allSome_range_isSome {α : Type} {n : Nat} {f : Nat → Option α}
    (h : ∀ i < n, ∃ x, f i = some x) : ∃ r, allSome ((List.range n).map f) = some r := by
  have key : ∀ l : List Nat, (∀ i ∈ l, ∃ x, f i = some x) → ∃ r, allSome (l.map f) = some r := by
    intro l
    induction l with
    | nil => intro _; exact ⟨[], rfl⟩
    | cons i l ih =>
      intro hl
      obtain ⟨x, hx⟩ := hl i (by simp)
      obtain ⟨r, hr⟩ := ih fun j hj => hl j (by simp [hj])
      exact ⟨x :: r, by simp [allSome, hx, hr]⟩
  exact key _ fun i hi => h i (List.mem_range.1 hi)

@[simp] theorem acRow_get (m : AcMap) (A : List Byte) (k : Fin 4) :
    (acRow m A).get k = acdec m A k := by
  match k with
  | 0 => rfl
  | 1 => rfl
  | 2 => rfl
  | 3 => rfl

/-- `ACT` after the rebuild: one row per sector, each decoded from that sector's trailer
(spec/10_state.md R30). -/
theorem actTable_eq_some {c : Config} {len : Nat} {img : Memory} {act : List AcRow} :
    actTable c len img = some act ↔
      act.length = nsec len ∧ ∀ s < nsec len, (regionOf img s).map (acRow c.acmap) = act[s]? := by
  unfold actTable; exact allSome_range

/-- The condition of a block in a rebuilt table (spec/10_state.md R31). -/
theorem acOf_actTable {c : Config} {len : Nat} {img : Memory} {act : List AcRow}
    (h : actTable c len img = some act) {s : Nat} (hs : s < nsec len) (b : Nat) :
    acOf act s b = (regionOf img s).map fun A => acdec c.acmap A (slotOf s b) := by
  unfold acOf
  rw [← (actTable_eq_some.1 h).2 s hs]
  cases regionOf img s <;> simp

/-- `VBS` after the rebuild: one entry per block (spec/10_state.md R32). -/
theorem vbsTable_eq_some {c : Config} {len : Nat} {img : Memory} {act : List AcRow}
    {vbs : List VbStatus} :
    vbsTable c len img act = some vbs ↔
      vbs.length = nblocks len ∧
        ∀ n < nblocks len, blockStatus c img act (addr n).1 (addr n).2 = vbs[n]? := by
  unfold vbsTable; exact allSome_range

theorem tables_eq_some {c : Config} {len : Nat} {img : Memory} {act : List AcRow}
    {vbs : List VbStatus} :
    tables c len img = some (act, vbs) ↔
      actTable c len img = some act ∧ vbsTable c len img act = some vbs := by
  unfold tables
  cases h : actTable c len img with
  | none => simp
  | some a =>
    simp only [Option.map_eq_some_iff, Prod.mk.injEq, Option.some.injEq]
    constructor
    · rintro ⟨v, hv, rfl, rfl⟩; exact ⟨rfl, hv⟩
    · rintro ⟨rfl, hv⟩; exact ⟨_, hv, rfl, rfl⟩

/-- Every image of a legal length has an access region in each sector. -/
theorem regionOf_of_exact {img : Memory} {len s : Nat} (h : img.map Prod.fst = List.range len)
    (hs : s < nsec len) : ∃ A, regionOf img s = some A ∧ A.length = 4 := by
  obtain ⟨A, hA⟩ := memRead_of_exact h (accessOff_lt hs)
  exact ⟨A, hA, memRead_length hA⟩

/-- The rebuild is total on images of a legal length (spec/43_cardimage.md R153). -/
theorem tables_of_exact (c : Config) {len : Nat} {img : Memory} (hl : LegalLen len)
    (h : img.map Prod.fst = List.range len) : ∃ act vbs, tables c len img = some (act, vbs) := by
  obtain ⟨act, ha⟩ : ∃ act, actTable c len img = some act := by
    refine allSome_range_isSome fun s hs => ?_
    obtain ⟨A, hA, -⟩ := regionOf_of_exact h hs
    exact ⟨acRow c.acmap A, by simp [hA]⟩
  obtain ⟨vbs, hv⟩ : ∃ vbs, vbsTable c len img act = some vbs := by
    refine allSome_range_isSome fun n hn => ?_
    obtain ⟨hs, hb, hf⟩ := addr_legal hl hn
    obtain ⟨A, hA, -⟩ := regionOf_of_exact h hs
    obtain ⟨B, hB⟩ := memRead_of_exact h (off_lt hs hb)
    unfold blockStatus
    rw [acOf_actTable ha hs, hA, hB]
    split
    · exact ⟨_, rfl⟩
    · split
      · exact ⟨_, rfl⟩
      · simp only [Option.map_some]
        cases acdec c.acmap A (slotOf (addr n).1 (addr n).2) with
        | corrupt => exact ⟨_, rfl⟩
        | valid x => simp only; split <;> exact ⟨_, rfl⟩
  exact ⟨act, vbs, tables_eq_some.2 ⟨ha, hv⟩⟩

theorem regionOf_congr {m m' : Memory} {s : Nat}
    (h : ∀ i < 4, Memory.read m' (accessOff s + i) = Memory.read m (accessOff s + i)) :
    regionOf m' s = regionOf m s := memRead_congr h

/-- `VBS` at a legal block of a rebuilt table. -/
theorem vbs_flat {c : Config} {len : Nat} {img : Memory} {act : List AcRow} {vbs : List VbStatus}
    (h : vbsTable c len img act = some vbs) {s b : Nat} (hs : s < nsec len) (hb : b < nblk s) :
    vbs[flat s b]? = blockStatus c img act s b := by
  rw [← (vbsTable_eq_some.1 h).2 _ (flat_lt hs hb), addr_flat hs hb]

theorem acOf_congr {act act' : List AcRow} {s b : Nat} (h : act'[s]? = act[s]?) :
    acOf act' s b = acOf act s b := by unfold acOf; rw [h]

/-- The status of a block depends on its condition and, where it is eligible, on its bytes
(spec/43_cardimage.md R154). -/
theorem blockStatus_congr {c : Config} {img img' : Memory} {act act' : List AcRow} {s b : Nat}
    (ha : ¬ (s = 0 ∧ b = 0) → b ≠ tb s → acOf act' s b = acOf act s b)
    (hi : ¬ (s = 0 ∧ b = 0) → b ≠ tb s → ∀ x, acOf act s b = some (.valid x) → x ∈ c.vbCodes →
      ∀ i < 16, Memory.read img' (off s b + i) = Memory.read img (off s b + i)) :
    blockStatus c img' act' s b = blockStatus c img act s b := by
  unfold blockStatus
  by_cases h0 : s = 0 ∧ b = 0
  · rw [if_pos h0, if_pos h0]
  · rw [if_neg h0, if_neg h0]
    by_cases h1 : b = tb s
    · rw [if_pos h1, if_pos h1]
    · rw [if_neg h1, if_neg h1, ha h0 h1]
      cases hac : acOf act s b with
      | none => rfl
      | some c =>
        cases c with
        | corrupt => rfl
        | valid x =>
          by_cases hx : x ∈ c.vbCodes
          · simp only [if_pos hx]; rw [memRead_congr (hi h0 h1 x hac hx)]
          · simp only [if_neg hx]

/-- The tables depend on the bytes below the length alone (spec/43_cardimage.md R153). -/
theorem tables_congr (c : Config) {len : Nat} (hl : LegalLen len) {img img' : Memory}
    (h : ∀ a < len, Memory.read img' a = Memory.read img a) :
    tables c len img' = tables c len img := by
  have hA : actTable c len img' = actTable c len img := by
    unfold actTable
    congr 1
    refine List.map_congr_left fun s hs => ?_
    rw [List.mem_range] at hs
    rw [regionOf_congr fun i hi => h _ (by have := accessOff_lt hs; omega)]
  have hV : ∀ act, vbsTable c len img' act = vbsTable c len img act := by
    intro act
    unfold vbsTable
    congr 1
    refine List.map_congr_left fun n hn => ?_
    rw [List.mem_range] at hn
    obtain ⟨hs, hb, _⟩ := addr_legal hl hn
    exact blockStatus_congr (fun _ _ => rfl) fun _ _ _ _ _ i hi => h _ (by
      have := off_lt hs hb; omega)
  unfold tables
  rw [hA]
  cases actTable c len img with
  | none => rfl
  | some act => simp only [hV]

end Sys2Proof.Machine
end

