-- ==== Sys2Proof/Laws/Effects.lean ====
section
/-! SUPPORT. Said once: what each command can do. `exec` gives a next state either by an error
response, which changes nothing but the interface, or by the command's own effect. -/

namespace Sys2Proof.Machine

/-- The error statuses a command can answer (spec/60_exceptions.md R217); `illegal` only where the
instruction is one that no legal header holds. -/
def errorsOf : Instr → List ErrorStatus
  | .parse _         => [.frame, .invalidSize]
  | .serialize       => [.frame, .notLoaded]
  | .editnib _ _ _ _ => [.frame, .notLoaded, .address, .bccProtected]
  | .editacb _ _ _ _ => [.illegal, .frame, .notLoaded, .address]
  | .rdblk _ _       => [.frame, .notLoaded, .address]
  | .rdac _ _        => [.frame, .notLoaded, .address]
  | .rdvbs _ _       => [.frame, .notLoaded, .address]
  | .rdclass _ _     => [.frame, .notLoaded, .address]
  | .rdrow _         => [.frame, .notLoaded, .address]
  | .rdstat          => [.frame]
  | .acdec _         => [.frame]
  | .acenc _ _ _     => [.illegal, .frame]
  | .vbchk           => [.frame]
  | .bcc _           => [.frame]

/-- The state that one command leaves when it completes with status `OK`. -/
def Effect (s : State) : Instr → State → Prop
  | .parse len, t => s.payload.length = len.toNat ∧ legalSize len.toNat = true ∧
      ∃ u, loadImage s.payload s = some u ∧ t = answer okCode (len.setWidth 32) [] u
  | .serialize, t => s.payload = [] ∧ s.len ≠ 0#13 ∧ ∃ q, memRead s.img 0 s.len.toNat = some q ∧
      t = answer okCode (s.len.setWidth 32) q { s with dirty := false }
  | .editnib sec blk nib val, t => s.payload = [] ∧ LegalAt s sec blk ∧
      isBccNibble sec.toNat blk.toNat nib.toNat = false ∧
      ∃ img u, nibbleEdit s.img sec.toNat blk.toNat nib.toNat val = some img ∧
        commitEdit img s = some u ∧ t = answer okCode 0#32 [] u
  | .editacb sec blk pos bit, t => s.payload = [] ∧ LegalAt s sec blk ∧
      ∃ j img u ac, posOf pos = some j ∧
        accessBitEdit chip.acmap s.img sec.toNat blk.toNat j bit = some img ∧
        commitEdit img s = some u ∧ acOf u.act sec.toNat blk.toNat = some ac ∧
        t = answer okCode ((ac4 ac).setWidth 32) [] u
  | .rdblk sec blk, t => s.payload = [] ∧ LegalAt s sec blk ∧
      ∃ q, memRead s.img (off sec.toNat blk.toNat) 16 = some q ∧ t = answer okCode 0#32 q s
  | .rdac sec blk, t => s.payload = [] ∧ LegalAt s sec blk ∧
      ∃ ac, acOf s.act sec.toNat blk.toNat = some ac ∧
        t = answer okCode ((ac4 ac).setWidth 32) [] s
  | .rdvbs sec blk, t => s.payload = [] ∧ LegalAt s sec blk ∧
      ∃ w, s.vbs[flat sec.toNat blk.toNat]? = some w ∧ t = answer okCode (vbCode w) [] s
  | .rdclass sec blk, t => s.payload = [] ∧ LegalAt s sec blk ∧
      t = answer okCode (classCode (blockClass sec.toNat blk.toNat)) [] s
  | .rdrow row, t => s.payload = [] ∧ s.len ≠ 0#13 ∧ row.toNat < nblocks s.len.toNat ∧
      t = answer okCode (rowWord (addr row.toNat).1 (addr row.toNat).2) [] s
  | .rdstat, t => s.payload = [] ∧ t = answer okCode (statusWord s.len s.dirty) [] s
  | .acdec slot, t => s.payload.length = 4 ∧
      t = answer okCode ((ac4 (acdec chip.acmap s.payload slot.toFin)).setWidth 32) [] s
  | .acenc slot pos bit, t => s.payload.length = 4 ∧ ∃ j, posOf pos = some j ∧
      t = answer okCode 0#32 (acenc chip.acmap s.payload slot.toFin j bit) s
  | .vbchk, t => s.payload.length = 16 ∧ t = answer okCode (vbCode (vbcheck s.payload)) [] s
  | .bcc len, t => s.payload.length = len.toNat ∧
      t = answer okCode ((bcc s.payload).setWidth 32) [] s

/-! ### The checks, each said once -/

theorem checkFrame_next {i : Instr} {s t : State} {k : Out} (h : checkFrame i s k = .next t) :
    t = answer ErrorStatus.frame.code 0#32 [] s ∨ s.payload.length = i.paylen ∧ k = .next t := by
  unfold checkFrame at h
  split at h
  · next hl => exact .inr ⟨hl, h⟩
  · simp only [raise, Host.Outcome.next.injEq] at h; exact .inl h.symm

theorem checkLoaded_next {s t : State} {k : Out} (h : checkLoaded s k = .next t) :
    t = answer ErrorStatus.notLoaded.code 0#32 [] s ∨ s.len ≠ 0#13 ∧ k = .next t := by
  unfold checkLoaded at h
  split at h
  · simp only [raise, Host.Outcome.next.injEq] at h; exact .inl h.symm
  · next hl => exact .inr ⟨hl, h⟩

theorem checkImage_next {s t : State} {sec : BitVec 6} {blk : BitVec 4} {k : Out}
    (h : checkImage sec.toNat blk.toNat s k = .next t) :
    t = answer ErrorStatus.notLoaded.code 0#32 [] s ∨ t = answer ErrorStatus.address.code 0#32 [] s ∨
      LegalAt s sec blk ∧ k = .next t := by
  unfold checkImage at h
  rcases checkLoaded_next h with h | ⟨hl, h⟩
  · exact .inl h
  · split at h
    · simp only [raise, Host.Outcome.next.injEq] at h; exact .inr (.inl h.symm)
    · split at h
      · simp only [raise, Host.Outcome.next.injEq] at h; exact .inr (.inl h.symm)
      · next h1 h2 => exact .inr (.inr ⟨⟨hl, by omega, by omega⟩, h⟩)

theorem checkPos_next {pos : BitVec 2} {s t : State} {k : Fin 3 → Out}
    (h : checkPos pos s k = .next t) :
    pos = 3#2 ∧ t = answer ErrorStatus.illegal.code 0#32 [] s ∨
      ∃ j, posOf pos = some j ∧ k j = .next t := by
  unfold checkPos at h
  split at h
  · next j hj => exact .inr ⟨j, hj, h⟩
  · next hn =>
    simp only [raise, Host.Outcome.next.injEq] at h
    refine .inl ⟨?_, h.symm⟩
    unfold posOf at hn
    split at hn
    · cases hn
    · next hp => apply BitVec.eq_of_toNat_eq; have := pos.isLt; simp only [BitVec.toNat_ofNat]; omega

theorem needValue_next {α : Type} {v : Option α} {t : State} {k : α → Out}
    (h : needValue v k = .next t) : ∃ x, v = some x ∧ k x = .next t := by
  unfold needValue at h
  split at h
  · next x => exact ⟨x, rfl, h⟩
  · cases h

theorem respond_next {r : Word} {q : List Byte} {s t : State} (h : respond r q s = .next t) :
    t = answer okCode r q s := by
  simp only [respond, Host.Outcome.next.injEq] at h; exact h.symm

theorem raise_next {e : ErrorStatus} {s t : State} (h : raise e s = .next t) :
    t = answer e.code 0#32 [] s := by
  simp only [raise, Host.Outcome.next.injEq] at h; exact h.symm

theorem checkFrame_of_length {i : Instr} {s : State} {k : Out} (h : s.payload.length = i.paylen) :
    checkFrame i s k = k := if_pos h

theorem checkLoaded_of_loaded {s : State} {k : Out} (h : s.len ≠ 0#13) : checkLoaded s k = k :=
  if_neg h

theorem checkImage_of_legal {s : State} {sec : BitVec 6} {blk : BitVec 4} {k : Out}
    (h : LegalAt s sec blk) : checkImage sec.toNat blk.toNat s k = k := by
  unfold checkImage
  rw [checkLoaded_of_loaded h.loaded, if_neg (by have := h.sec_lt; omega),
    if_neg (by have := h.blk_lt; omega)]

theorem checkPos_of_some {pos : BitVec 2} {s : State} {j : Fin 3} {k : Fin 3 → Out}
    (h : posOf pos = some j) : checkPos pos s k = k j := by unfold checkPos; rw [h]

@[simp] theorem needValue_some {α : Type} (x : α) (k : α → Out) : needValue (some x) k = k x := rfl

theorem posOf_of_ne {pos : BitVec 2} (h : pos ≠ 3#2) : ∃ j, posOf pos = some j ∧ j.val = pos.toNat := by
  unfold posOf
  have : pos.toNat < 3 := by
    have h1 := pos.isLt
    have h2 : pos.toNat ≠ 3 := fun e => h (BitVec.eq_of_toNat_eq e)
    omega
  exact ⟨⟨pos.toNat, this⟩, by rw [dif_pos this], rfl⟩

theorem posOf_eq_some {pos : BitVec 2} {j : Fin 3} (h : posOf pos = some j) :
    pos ≠ 3#2 ∧ j.val = pos.toNat := by
  unfold posOf at h
  split at h
  · next hp =>
    simp only [Option.some.injEq] at h
    subst h
    exact ⟨by rintro rfl; simp at hp, rfl⟩
  · cases h

/-! ### What a command can do -/

/-- A command that gives a next state answered an error, with no other change, or had its effect. -/
theorem exec_cases {i : Instr} {s t : State} (h : exec i s = .next t) :
    (∃ e ∈ errorsOf i, (e = .illegal → ¬ i.WellFormed) ∧ t = answer e.code 0#32 [] s) ∨
      Effect s i t := by
  cases i with
  | parse len =>
    simp only [exec, execParse] at h
    rcases checkFrame_next h with h | ⟨hp, h⟩
    · exact .inl ⟨.frame, by simp [errorsOf], nofun, h⟩
    · split at h
      · next hz =>
        obtain ⟨u, hu, h⟩ := needValue_next h
        exact .inr ⟨hp, hz, u, hu, respond_next h⟩
      · exact .inl ⟨.invalidSize, by simp [errorsOf], nofun, raise_next h⟩
  | serialize =>
    simp only [exec, execSerialize] at h
    rcases checkFrame_next h with h | ⟨hp, h⟩
    · exact .inl ⟨.frame, by simp [errorsOf], nofun, h⟩
    · rcases checkLoaded_next h with h | ⟨hl, h⟩
      · exact .inl ⟨.notLoaded, by simp [errorsOf], nofun, h⟩
      · obtain ⟨q, hq, h⟩ := needValue_next h
        exact .inr ⟨List.length_eq_zero_iff.1 hp, hl, q, hq, respond_next h⟩
  | editnib sec blk nib val =>
    simp only [exec, execEditnib] at h
    rcases checkFrame_next h with h | ⟨hp, h⟩
    · exact .inl ⟨.frame, by simp [errorsOf], nofun, h⟩
    · rcases checkImage_next h with h | h | ⟨hl, h⟩
      · exact .inl ⟨.notLoaded, by simp [errorsOf], nofun, h⟩
      · exact .inl ⟨.address, by simp [errorsOf], nofun, h⟩
      · split at h
        · exact .inl ⟨.bccProtected, by simp [errorsOf], nofun, raise_next h⟩
        · next hb =>
          obtain ⟨img, hi, h⟩ := needValue_next h
          obtain ⟨u, hu, h⟩ := needValue_next h
          exact .inr ⟨List.length_eq_zero_iff.1 hp, hl, by simpa using hb, img, u, hi, hu,
            respond_next h⟩
  | editacb sec blk pos bit =>
    simp only [exec, execEditacb] at h
    rcases checkPos_next h with ⟨hp, h⟩ | ⟨j, hj, h⟩
    · exact .inl ⟨.illegal, by simp [errorsOf], fun _ => by simp [Instr.WellFormed, Instr.wf, hp], h⟩
    · rcases checkFrame_next h with h | ⟨hp, h⟩
      · exact .inl ⟨.frame, by simp [errorsOf], nofun, h⟩
      · rcases checkImage_next h with h | h | ⟨hl, h⟩
        · exact .inl ⟨.notLoaded, by simp [errorsOf], nofun, h⟩
        · exact .inl ⟨.address, by simp [errorsOf], nofun, h⟩
        · obtain ⟨img, hi, h⟩ := needValue_next h
          obtain ⟨u, hu, h⟩ := needValue_next h
          obtain ⟨ac, ha, h⟩ := needValue_next h
          exact .inr ⟨List.length_eq_zero_iff.1 hp, hl, j, img, u, ac, hj, hi, hu, ha,
            respond_next h⟩
  | rdblk sec blk =>
    simp only [exec, execRdblk] at h
    rcases checkFrame_next h with h | ⟨hp, h⟩
    · exact .inl ⟨.frame, by simp [errorsOf], nofun, h⟩
    · rcases checkImage_next h with h | h | ⟨hl, h⟩
      · exact .inl ⟨.notLoaded, by simp [errorsOf], nofun, h⟩
      · exact .inl ⟨.address, by simp [errorsOf], nofun, h⟩
      · obtain ⟨q, hq, h⟩ := needValue_next h
        exact .inr ⟨List.length_eq_zero_iff.1 hp, hl, q, hq, respond_next h⟩
  | rdac sec blk =>
    simp only [exec, execRdac] at h
    rcases checkFrame_next h with h | ⟨hp, h⟩
    · exact .inl ⟨.frame, by simp [errorsOf], nofun, h⟩
    · rcases checkImage_next h with h | h | ⟨hl, h⟩
      · exact .inl ⟨.notLoaded, by simp [errorsOf], nofun, h⟩
      · exact .inl ⟨.address, by simp [errorsOf], nofun, h⟩
      · obtain ⟨ac, ha, h⟩ := needValue_next h
        exact .inr ⟨List.length_eq_zero_iff.1 hp, hl, ac, ha, respond_next h⟩
  | rdvbs sec blk =>
    simp only [exec, execRdvbs] at h
    rcases checkFrame_next h with h | ⟨hp, h⟩
    · exact .inl ⟨.frame, by simp [errorsOf], nofun, h⟩
    · rcases checkImage_next h with h | h | ⟨hl, h⟩
      · exact .inl ⟨.notLoaded, by simp [errorsOf], nofun, h⟩
      · exact .inl ⟨.address, by simp [errorsOf], nofun, h⟩
      · obtain ⟨w, hw, h⟩ := needValue_next h
        exact .inr ⟨List.length_eq_zero_iff.1 hp, hl, w, hw, respond_next h⟩
  | rdclass sec blk =>
    simp only [exec, execRdclass] at h
    rcases checkFrame_next h with h | ⟨hp, h⟩
    · exact .inl ⟨.frame, by simp [errorsOf], nofun, h⟩
    · rcases checkImage_next h with h | h | ⟨hl, h⟩
      · exact .inl ⟨.notLoaded, by simp [errorsOf], nofun, h⟩
      · exact .inl ⟨.address, by simp [errorsOf], nofun, h⟩
      · exact .inr ⟨List.length_eq_zero_iff.1 hp, hl, respond_next h⟩
  | rdrow row =>
    simp only [exec, execRdrow] at h
    rcases checkFrame_next h with h | ⟨hp, h⟩
    · exact .inl ⟨.frame, by simp [errorsOf], nofun, h⟩
    · rcases checkLoaded_next h with h | ⟨hl, h⟩
      · exact .inl ⟨.notLoaded, by simp [errorsOf], nofun, h⟩
      · split at h
        · exact .inl ⟨.address, by simp [errorsOf], nofun, raise_next h⟩
        · next hr => exact .inr ⟨List.length_eq_zero_iff.1 hp, hl, by omega, respond_next h⟩
  | rdstat =>
    simp only [exec, execRdstat] at h
    rcases checkFrame_next h with h | ⟨hp, h⟩
    · exact .inl ⟨.frame, by simp [errorsOf], nofun, h⟩
    · exact .inr ⟨List.length_eq_zero_iff.1 hp, respond_next h⟩
  | acdec slot =>
    simp only [exec, execAcdec] at h
    rcases checkFrame_next h with h | ⟨hp, h⟩
    · exact .inl ⟨.frame, by simp [errorsOf], nofun, h⟩
    · exact .inr ⟨hp, respond_next h⟩
  | acenc slot pos bit =>
    simp only [exec, execAcenc] at h
    rcases checkPos_next h with ⟨hp, h⟩ | ⟨j, hj, h⟩
    · exact .inl ⟨.illegal, by simp [errorsOf], fun _ => by simp [Instr.WellFormed, Instr.wf, hp], h⟩
    · rcases checkFrame_next h with h | ⟨hp, h⟩
      · exact .inl ⟨.frame, by simp [errorsOf], nofun, h⟩
      · exact .inr ⟨hp, j, hj, respond_next h⟩
  | vbchk =>
    simp only [exec, execVbchk] at h
    rcases checkFrame_next h with h | ⟨hp, h⟩
    · exact .inl ⟨.frame, by simp [errorsOf], nofun, h⟩
    · exact .inr ⟨hp, respond_next h⟩
  | bcc len =>
    simp only [exec, execBcc] at h
    rcases checkFrame_next h with h | ⟨hp, h⟩
    · exact .inl ⟨.frame, by simp [errorsOf], nofun, h⟩
    · exact .inr ⟨hp, respond_next h⟩

/-- A command whose effect is possible has it. -/
theorem exec_of_effect {i : Instr} {s t : State} (h : Effect s i t) : exec i s = .next t := by
  cases i with
  | parse len =>
    obtain ⟨hp, hz, u, hu, rfl⟩ := h
    simp only [exec, execParse, checkFrame_of_length (i := .parse len) hp, hz, if_true, hu,
      needValue_some, respond]
  | serialize =>
    obtain ⟨hp, hl, q, hq, rfl⟩ := h
    simp only [exec, execSerialize, checkFrame_of_length (i := .serialize) (by rw [hp]; rfl),
      checkLoaded_of_loaded hl, hq, needValue_some, respond]
  | editnib sec blk nib val =>
    obtain ⟨hp, hl, hb, img, u, hi, hu, rfl⟩ := h
    simp only [exec, execEditnib,
      checkFrame_of_length (i := .editnib sec blk nib val) (by rw [hp]; rfl),
      checkImage_of_legal hl, hb, Bool.false_eq_true, if_false, hi, hu, needValue_some, respond]
  | editacb sec blk pos bit =>
    obtain ⟨hp, hl, j, img, u, ac, hj, hi, hu, ha, rfl⟩ := h
    simp only [exec, execEditacb, checkPos_of_some hj,
      checkFrame_of_length (i := .editacb sec blk pos bit) (by rw [hp]; rfl),
      checkImage_of_legal hl, hi, hu, ha, needValue_some, respond]
  | rdblk sec blk =>
    obtain ⟨hp, hl, q, hq, rfl⟩ := h
    simp only [exec, execRdblk, checkFrame_of_length (i := .rdblk sec blk) (by rw [hp]; rfl),
      checkImage_of_legal hl, hq, needValue_some, respond]
  | rdac sec blk =>
    obtain ⟨hp, hl, ac, ha, rfl⟩ := h
    simp only [exec, execRdac, checkFrame_of_length (i := .rdac sec blk) (by rw [hp]; rfl),
      checkImage_of_legal hl, ha, needValue_some, respond]
  | rdvbs sec blk =>
    obtain ⟨hp, hl, w, hw, rfl⟩ := h
    simp only [exec, execRdvbs, checkFrame_of_length (i := .rdvbs sec blk) (by rw [hp]; rfl),
      checkImage_of_legal hl, hw, needValue_some, respond]
  | rdclass sec blk =>
    obtain ⟨hp, hl, rfl⟩ := h
    simp only [exec, execRdclass, checkFrame_of_length (i := .rdclass sec blk) (by rw [hp]; rfl),
      checkImage_of_legal hl, respond]
  | rdrow row =>
    obtain ⟨hp, hl, hr, rfl⟩ := h
    simp only [exec, execRdrow, checkFrame_of_length (i := .rdrow row) (by rw [hp]; rfl),
      checkLoaded_of_loaded hl, if_neg (show ¬ nblocks s.len.toNat ≤ row.toNat by omega), respond]
  | rdstat =>
    obtain ⟨hp, rfl⟩ := h
    simp only [exec, execRdstat, checkFrame_of_length (i := .rdstat) (by rw [hp]; rfl), respond]
  | acdec slot =>
    obtain ⟨hp, rfl⟩ := h
    simp only [exec, execAcdec, checkFrame_of_length (i := .acdec slot) hp, respond]
  | acenc slot pos bit =>
    obtain ⟨hp, j, hj, rfl⟩ := h
    simp only [exec, execAcenc, checkPos_of_some hj,
      checkFrame_of_length (i := .acenc slot pos bit) hp, respond]
  | vbchk =>
    obtain ⟨hp, rfl⟩ := h
    simp only [exec, execVbchk, checkFrame_of_length (i := .vbchk) hp, respond]
  | bcc len =>
    obtain ⟨hp, rfl⟩ := h
    simp only [exec, execBcc, checkFrame_of_length (i := .bcc len) hp, respond]

end Sys2Proof.Machine
end

