-- ==== Sys2Proof/Laws/Edits.lean ====
section
/-! SUPPORT. The writes of PARSE, EDITNIB and EDITACB: the bytes they leave, that the store stays
exact, and that the rebuild after them answers. -/

namespace Sys2Proof.Machine

theorem rebuild_eq_some {c : Config} {s u : State} :
    rebuild c s = some u ↔
      ∃ act vbs, tables c s.len.toNat s.img = some (act, vbs) ∧ u = { s with act := act, vbs := vbs } := by
  unfold rebuild
  simp only [Option.map_eq_some_iff, Prod.exists]
  constructor <;> rintro ⟨a, v, h, rfl⟩ <;> exact ⟨a, v, h, rfl⟩

theorem commitEdit_eq_some {img : Memory} {s u : State} :
    commitEdit img s = some u ↔
      ∃ act vbs, tables chip s.len.toNat img = some (act, vbs) ∧
        u = { s with img := img, dirty := true, act := act, vbs := vbs } := by
  unfold commitEdit; exact rebuild_eq_some

theorem loadImage_eq_some {X : List Byte} {s u : State} :
    loadImage X s = some u ↔
      ∃ act vbs, tables chip (BitVec.ofNat 13 X.length).toNat (imageOf 0 X) = some (act, vbs) ∧
        u = { s with
          len := BitVec.ofNat 13 X.length, img := imageOf 0 X, dirty := false, act := act,
          vbs := vbs } := by
  unfold loadImage; exact rebuild_eq_some

theorem legalSize_iff (n : Nat) : legalSize n = true ↔ n = 320 ∨ n = 1024 ∨ n = 4096 := by
  simp [legalSize, or_assoc]

theorem len_of_legalSize {n : Nat} (h : legalSize n = true) : (BitVec.ofNat 13 n).toNat = n := by
  rw [legalSize_iff] at h
  rcases h with rfl | rfl | rfl <;> rfl

theorem State.Coherent.legalLen {s : State} (h : s.Coherent) : LegalLen s.len.toNat := h.len_legal

theorem len_ne_zero {s : State} (h : s.len ≠ 0#13) : s.len.toNat ≠ 0 := fun e =>
  h (BitVec.eq_of_toNat_eq e)

/-- In a coherent state each sector has its row of `ACT` (spec/10_state.md R30). -/
theorem State.Coherent.act {s : State} (h : s.Coherent) : actTable chip s.len.toNat s.img = some s.act :=
  (tables_eq_some.1 h.tables_eq).1

/-- In a coherent state each block has its entry of `VBS` (spec/10_state.md R32). -/
theorem State.Coherent.vbs {s : State} (h : s.Coherent) :
    vbsTable chip s.len.toNat s.img s.act = some s.vbs :=
  (tables_eq_some.1 h.tables_eq).2

/-- An edited store that is still exact becomes the image, and the state stays coherent. -/
theorem commitEdit_coherent {s : State} (h : s.Coherent) (hl : s.len ≠ 0#13) {img : Memory}
    (he : img.map Prod.fst = List.range s.len.toNat) :
    ∃ u, commitEdit img s = some u ∧ u.Coherent ∧ u.img = img ∧ u.len = s.len ∧ u.dirty = true ∧
      u.payload = s.payload ∧ u.inbox = s.inbox ∧ u.outbox = s.outbox := by
  obtain ⟨act, vbs, ht⟩ := tables_of_exact chip h.legalLen he
  refine ⟨_, commitEdit_eq_some.2 ⟨act, vbs, ht, rfl⟩, ?_, rfl, rfl, rfl, rfl, rfl, rfl⟩
  exact ⟨h.len_legal, fun e => absurd e hl, he, ht⟩

/-- A dump of a legal length becomes the image, and the state is coherent. -/
theorem loadImage_coherent {X : List Byte} (hX : legalSize X.length = true) (s : State) :
    ∃ u, loadImage X s = some u ∧ u.Coherent ∧ u.img = imageOf 0 X ∧ u.len.toNat = X.length ∧
      u.dirty = false ∧ u.payload = s.payload ∧ u.inbox = s.inbox ∧ u.outbox = s.outbox := by
  have hlen := len_of_legalSize hX
  have hl : LegalLen X.length := by rw [legalSize_iff] at hX; unfold LegalLen; omega
  obtain ⟨act, vbs, ht⟩ := tables_of_exact chip hl (imageOf_zero_addresses X)
  refine ⟨_, loadImage_eq_some.2 ⟨act, vbs, by rw [hlen]; exact ht, rfl⟩, ?_, rfl, hlen, rfl, rfl,
    rfl, rfl⟩
  exact ⟨by rw [hlen]; exact hl, fun _ => rfl, by rw [hlen]; exact imageOf_zero_addresses X,
    by rw [hlen]; exact ht⟩

theorem legalLen_of_nsec {len s : Nat} (h : s < nsec len) : LegalLen len := by
  have := nsec_pos_legal h; unfold LegalLen; omega

theorem nibOff_lt {len s b nib : Nat} (hs : s < nsec len) (hb : b < nblk s) (hn : nib < 32) :
    nibOff s b nib < len := by
  have := off_lt hs hb; unfold nibOff; omega

theorem isUidNibble_iff {s b nib : Nat} :
    isUidNibble s b nib = true ↔ s = 0 ∧ b = 0 ∧ nib ≤ 7 := by
  simp [isUidNibble, and_assoc]

theorem isBccNibble_iff {s b nib : Nat} :
    isBccNibble s b nib = true ↔ s = 0 ∧ b = 0 ∧ (nib = 8 ∨ nib = 9) := by
  simp [isBccNibble, and_assoc]

/-- A nibble of the UID lies in the first four bytes. -/
theorem nibOff_uid {s b nib : Nat} (h : isUidNibble s b nib = true) : nibOff s b nib < 4 := by
  obtain ⟨rfl, rfl, h⟩ := isUidNibble_iff.1 h
  simp [nibOff, off_eq]; omega

/-- Every byte after a nibble edit (spec/43_cardimage.md R165). -/
theorem nibbleEdit_reads {img img' : Memory} {sec blk nib : Nat} {val : BitVec 4}
    (h : nibbleEdit img sec blk nib val = some img') :
    ∃ old, Memory.read img (nibOff sec blk nib) = some old ∧
      Memory.read img' (nibOff sec blk nib) = some (setNibble old nib val) ∧
      (∀ c, c ≠ nibOff sec blk nib → (isUidNibble sec blk nib = true → c ≠ 4) →
        Memory.read img' c = Memory.read img c) ∧
      (isUidNibble sec blk nib = true →
        ∃ uid, memRead img' 0 4 = some uid ∧ Memory.read img' 4 = some (bcc uid)) := by
  unfold nibbleEdit at h
  split at h
  · cases h
  · next old ho =>
    refine ⟨old, ho, ?_⟩
    split at h
    · next hu =>
      simp only [updateBcc, Option.map_eq_some_iff] at h
      obtain ⟨uid, hr, rfl⟩ := h
      have ha := nibOff_uid hu
      refine ⟨?_, ?_, fun _ => ⟨uid, ?_, read_write_same _ _ _⟩⟩
      · rw [read_write_other _ _ (by omega), read_write_same]
      · intro c hc hc4
        rw [read_write_other _ _ (hc4 hu), read_write_other _ _ hc]
      · rw [← hr]
        exact memRead_congr fun i hi => read_write_other _ _ (by omega)
    · next hu =>
      simp only [Option.some.injEq] at h
      subst h
      exact ⟨read_write_same _ _ _, fun c hc _ => read_write_other _ _ hc, fun e => absurd e hu⟩

/-- A nibble edit of a legal block answers, and leaves the store exact. -/
theorem nibbleEdit_exact {img : Memory} {len sec blk nib : Nat} (val : BitVec 4)
    (he : img.map Prod.fst = List.range len) (hs : sec < nsec len) (hb : blk < nblk sec)
    (hn : nib < 32) :
    ∃ img', nibbleEdit img sec blk nib val = some img' ∧ img'.map Prod.fst = List.range len := by
  have ha := nibOff_lt hs hb hn
  obtain ⟨old, ho⟩ := Option.isSome_iff_exists.1 ((read_isSome_of_exact he).2 ha)
  have h1 := write_exact (setNibble old nib val) he ha
  have hlen := nsec_pos_legal hs
  unfold nibbleEdit
  rw [ho]
  simp only
  split
  · obtain ⟨uid, hu⟩ := memRead_of_exact h1 (show 0 + 4 ≤ len by omega)
    exact ⟨_, by rw [updateBcc, hu]; rfl, write_exact _ h1 (by omega)⟩
  · exact ⟨_, rfl, h1⟩

/-- Every byte after an access-bit edit (spec/43_cardimage.md R170). -/
theorem accessBitEdit_reads {m : AcMap} {img img' : Memory} {sec blk : Nat} {j : Fin 3} {bit : Bool}
    (h : accessBitEdit m img sec blk j bit = some img') :
    ∃ A, regionOf img sec = some A ∧ A.length = 4 ∧
      regionOf img' sec = some (acenc m A (slotOf sec blk) j bit) ∧
      ∀ c, (c < accessOff sec ∨ accessOff sec + 4 ≤ c) →
        Memory.read img' c = Memory.read img c := by
  simp only [accessBitEdit, Option.map_eq_some_iff] at h
  obtain ⟨A, hA, rfl⟩ := h
  have hl := memRead_length hA
  have hl' : (acenc m A (slotOf sec blk) j bit).length = 4 := by simpa using hl
  refine ⟨A, hA, hl, ?_, fun c hc => ?_⟩
  · have := memRead_memWrite_same img (accessOff sec) (acenc m A (slotOf sec blk) j bit)
    rwa [hl'] at this
  · rw [read_memWrite, if_neg (by omega)]

/-- An access-bit edit of a legal sector answers, and leaves the store exact. -/
theorem accessBitEdit_exact (m : AcMap) {img : Memory} {len sec : Nat} (blk : Nat) (j : Fin 3)
    (bit : Bool) (he : img.map Prod.fst = List.range len) (hs : sec < nsec len) :
    ∃ img', accessBitEdit m img sec blk j bit = some img' ∧
      img'.map Prod.fst = List.range len := by
  obtain ⟨A, hA, hl⟩ := regionOf_of_exact he hs
  refine ⟨_, by rw [accessBitEdit, hA]; rfl, memWrite_exact he ?_⟩
  have := accessOff_lt hs
  rw [acenc_length, hl]; omega

end Sys2Proof.Machine
end

