-- ==== Sys2Proof/Laws/Encoding.lean ====
section
/-! SUPPORT. The header formats bit by bit: each field of a format reads back, and the bits a row
masks are those of its opcode (spec/30_encoding.md R81, R84). -/

namespace Sys2Proof.Header

/-! ### The bits of each format -/

section formatA
variable (o : BitVec 4) (s : BitVec 6) (b : BitVec 4) (n : BitVec 5) (v : BitVec 4) (p : BitVec 2)
  (t : Bool)

theorem getLsbD_formatA (i : Nat) : (formatA o s b n v p t).getLsbD i =
    if i < 6 then false else if i < 7 then t else if i < 9 then p.getLsbD (i - 7)
    else if i < 13 then v.getLsbD (i - 9) else if i < 18 then n.getLsbD (i - 13)
    else if i < 22 then b.getLsbD (i - 18) else if i < 28 then s.getLsbD (i - 22)
    else o.getLsbD (i - 28) := by
  show BitVec.getLsbD (w := 4+6+4+5+4+2+1+6)
    (o ++ s ++ b ++ n ++ v ++ p ++ BitVec.ofBool t ++ 0#6) i = _
  simp only [BitVec.getLsbD_append, BitVec.getLsbD_ofBool, BitVec.getLsbD_zero]
  repeat' split
  all_goals first | rfl | (exfalso; omega) | skip
  all_goals simp; omega

@[simp] theorem op_formatA : op (formatA o s b n v p t) = o := by
  apply BitVec.eq_of_getLsbD_eq
  intro i hi
  interval_cases i <;> simp [op, getLsbD_formatA, -BitVec.getLsbD_eq_getElem]

@[simp] theorem sec_formatA : sec (formatA o s b n v p t) = s := by
  apply BitVec.eq_of_getLsbD_eq
  intro i hi
  interval_cases i <;> simp [sec, getLsbD_formatA, -BitVec.getLsbD_eq_getElem]

@[simp] theorem blk_formatA : blk (formatA o s b n v p t) = b := by
  apply BitVec.eq_of_getLsbD_eq
  intro i hi
  interval_cases i <;> simp [blk, getLsbD_formatA, -BitVec.getLsbD_eq_getElem]

@[simp] theorem nib_formatA : nib (formatA o s b n v p t) = n := by
  apply BitVec.eq_of_getLsbD_eq
  intro i hi
  interval_cases i <;> simp [nib, getLsbD_formatA, -BitVec.getLsbD_eq_getElem]

@[simp] theorem val_formatA : val (formatA o s b n v p t) = v := by
  apply BitVec.eq_of_getLsbD_eq
  intro i hi
  interval_cases i <;> simp [val, getLsbD_formatA, -BitVec.getLsbD_eq_getElem]

@[simp] theorem pos_formatA : pos (formatA o s b n v p t) = p := by
  apply BitVec.eq_of_getLsbD_eq
  intro i hi
  interval_cases i <;> simp [pos, getLsbD_formatA, -BitVec.getLsbD_eq_getElem]

@[simp] theorem bit_formatA : bit (formatA o s b n v p t) = t := by
  simp [bit, getLsbD_formatA, -BitVec.getLsbD_eq_getElem]

/-- The rows that use `sec` and `blk` only. -/
theorem mask_formatA_block :
    formatA o s b 0#5 0#4 0#2 false &&& 0xF003FFFF#32 = formatA o 0#6 0#4 0#5 0#4 0#2 false := by
  apply BitVec.eq_of_getLsbD_eq
  intro i hi
  rw [BitVec.getLsbD_and]
  interval_cases i <;> simp [getLsbD_formatA, -BitVec.getLsbD_eq_getElem]

/-- The row of EDITNIB. -/
theorem mask_formatA_nibble :
    formatA o s b n v 0#2 false &&& 0xF00001FF#32 = formatA o 0#6 0#4 0#5 0#4 0#2 false := by
  apply BitVec.eq_of_getLsbD_eq
  intro i hi
  rw [BitVec.getLsbD_and]
  interval_cases i <;> simp [getLsbD_formatA, -BitVec.getLsbD_eq_getElem]

/-- The row of EDITACB. -/
theorem mask_formatA_bit :
    formatA o s b 0#5 0#4 p t &&& 0xF003FE3F#32 = formatA o 0#6 0#4 0#5 0#4 0#2 false := by
  apply BitVec.eq_of_getLsbD_eq
  intro i hi
  rw [BitVec.getLsbD_and]
  interval_cases i <;> simp [getLsbD_formatA, -BitVec.getLsbD_eq_getElem]

end formatA

section formatL
variable (o : BitVec 4) (l : BitVec 16)

theorem getLsbD_formatL (i : Nat) : (formatL o l).getLsbD i =
    if i < 16 then l.getLsbD i else if i < 28 then false else o.getLsbD (i - 28) := by
  show BitVec.getLsbD (w := 4+12+16) (o ++ 0#12 ++ l) i = _
  simp only [BitVec.getLsbD_append, BitVec.getLsbD_zero]
  repeat' split
  all_goals first | rfl | (exfalso; omega)

@[simp] theorem op_formatL : op (formatL o l) = o := by
  apply BitVec.eq_of_getLsbD_eq
  intro i hi
  interval_cases i <;> simp [op, getLsbD_formatL, -BitVec.getLsbD_eq_getElem]

@[simp] theorem len_formatL : len (formatL o l) = l := by
  apply BitVec.eq_of_getLsbD_eq
  intro i hi
  interval_cases i <;> simp [len, getLsbD_formatL, -BitVec.getLsbD_eq_getElem]

theorem mask_formatL : formatL o l &&& 0xFFFF0000#32 = formatL o 0#16 := by
  apply BitVec.eq_of_getLsbD_eq
  intro i hi
  rw [BitVec.getLsbD_and]
  interval_cases i <;> simp [getLsbD_formatL, -BitVec.getLsbD_eq_getElem]

end formatL

theorem getLsbD_formatN (o : BitVec 4) (i : Nat) :
    (formatN o).getLsbD i = if 28 ≤ i then o.getLsbD (i - 28) else false := by
  show BitVec.getLsbD (w := 4+28) (o ++ 0#28) i = _
  simp only [BitVec.getLsbD_append, BitVec.getLsbD_zero]
  repeat' split
  all_goals first | rfl | (exfalso; omega)

section formatS
variable (o : BitVec 4) (p : BitVec 2) (t : Bool) (k : BitVec 2)

theorem getLsbD_formatS (i : Nat) : (formatS o p t k).getLsbD i =
    if i < 4 then false else if i < 6 then k.getLsbD (i - 4) else if i < 7 then t
    else if i < 9 then p.getLsbD (i - 7) else if i < 28 then false else o.getLsbD (i - 28) := by
  show BitVec.getLsbD (w := 4+19+2+1+2+4) (o ++ 0#19 ++ p ++ BitVec.ofBool t ++ k ++ 0#4) i = _
  simp only [BitVec.getLsbD_append, BitVec.getLsbD_ofBool, BitVec.getLsbD_zero]
  repeat' split
  all_goals first | rfl | (exfalso; omega) | skip
  all_goals simp; omega

@[simp] theorem op_formatS : op (formatS o p t k) = o := by
  apply BitVec.eq_of_getLsbD_eq
  intro i hi
  interval_cases i <;> simp [op, getLsbD_formatS, -BitVec.getLsbD_eq_getElem]

@[simp] theorem pos_formatS : pos (formatS o p t k) = p := by
  apply BitVec.eq_of_getLsbD_eq
  intro i hi
  interval_cases i <;> simp [pos, getLsbD_formatS, -BitVec.getLsbD_eq_getElem]

@[simp] theorem slot_formatS : slot (formatS o p t k) = k := by
  apply BitVec.eq_of_getLsbD_eq
  intro i hi
  interval_cases i <;> simp [slot, getLsbD_formatS, -BitVec.getLsbD_eq_getElem]

@[simp] theorem bit_formatS : bit (formatS o p t k) = t := by
  simp [bit, getLsbD_formatS, -BitVec.getLsbD_eq_getElem]

/-- The row of ACDEC. -/
theorem mask_formatS_slot :
    formatS o 0#2 false k &&& 0xFFFFFFCF#32 = formatS o 0#2 false 0#2 := by
  apply BitVec.eq_of_getLsbD_eq
  intro i hi
  rw [BitVec.getLsbD_and]
  interval_cases i <;> simp [getLsbD_formatS, -BitVec.getLsbD_eq_getElem]

/-- The row of ACENC. -/
theorem mask_formatS_bit : formatS o p t k &&& 0xFFFFFE0F#32 = formatS o 0#2 false 0#2 := by
  apply BitVec.eq_of_getLsbD_eq
  intro i hi
  rw [BitVec.getLsbD_and]
  interval_cases i <;> simp [getLsbD_formatS, -BitVec.getLsbD_eq_getElem]

end formatS

end Sys2Proof.Header

namespace Sys2Proof

theorem selected_of_match {h mask pattern : Word} (i : Instr) (e : h &&& mask = pattern) :
    selected h mask pattern i = .ok i := if_pos e

theorem selectedPos_of_match {h mask pattern : Word} (i : Instr) (e : h &&& mask = pattern)
    (hp : Header.pos h ≠ 3#2) : selectedPos h mask pattern i = .ok i := by
  unfold selectedPos; rw [if_pos e, if_neg hp]

theorem selected_eq_ok {h mask pattern : Word} {i j : Instr} :
    selected h mask pattern i = .ok j ↔ h &&& mask = pattern ∧ i = j := by
  unfold selected; split <;> simp_all

theorem selectedPos_eq_ok {h mask pattern : Word} {i j : Instr} :
    selectedPos h mask pattern i = .ok j ↔
      h &&& mask = pattern ∧ Header.pos h ≠ 3#2 ∧ i = j := by
  unfold selectedPos
  split
  · split <;> simp_all
  · simp_all

/-! ### Reading a match back -/

/-- A bit the mask keeps is that of the pattern. -/
theorem bit_of_match {h mask pattern : Word} (e : h &&& mask = pattern) (i : Nat)
    (hm : mask.getLsbD i = true) : h.getLsbD i = pattern.getLsbD i := by
  rw [← e]; simp [hm, -BitVec.getLsbD_eq_getElem]

/-- A field the mask keeps and the pattern has zero is zero. -/
theorem field_zero_of_match {h mask pattern : Word} (e : h &&& mask = pattern) (st len : Nat)
    (hm : ∀ i < len, mask.getLsbD (st + i) = true)
    (hp : ∀ i < len, pattern.getLsbD (st + i) = false) : h.extractLsb' st len = 0 := by
  apply BitVec.eq_of_getLsbD_eq
  intro i hi
  have := bit_of_match e (st + i) (hm i hi)
  rw [hp i hi] at this
  simp [hi, this, -BitVec.getLsbD_eq_getElem]

/-- The opcode of a header that agrees with a row is the row's. -/
theorem op_of_match {h mask pattern : Word} (e : h &&& mask = pattern)
    (hm : ∀ i < 4, mask.getLsbD (28 + i) = true) : Header.op h = pattern.extractLsb' 28 4 := by
  apply BitVec.eq_of_getLsbD_eq
  intro i hi
  simpa [Header.op, hi, -BitVec.getLsbD_eq_getElem] using bit_of_match e (28 + i) (hm i hi)

/-- A decoded instruction is well formed (spec/30_encoding.md R86). -/
theorem wellFormed_of_decode {h : Word} {i : Instr} (hd : decode h = .ok i) : i.WellFormed := by
  unfold decode at hd
  split at hd
  all_goals first
    | cases hd
    | (obtain ⟨_, rfl⟩ := selected_eq_ok.1 hd; rfl)
    | (obtain ⟨_, hp, rfl⟩ := selectedPos_eq_ok.1 hd
       simpa [Instr.WellFormed, Instr.wf] using hp)

end Sys2Proof
end

