-- ==== Sys2Proof/Laws/Outcome.lean ====
section
/-! SUPPORT. The outcome of a command and of a step, said once: what it can be, what it keeps, and
that in a coherent state there is one. -/

namespace Sys2Proof.Machine

/-! ### The effect of a command -/

/-- The interface after a command's own effect: the payload consumed, one response, status `OK`. -/
theorem effect_interface {i : Instr} {s t : State} (he : Effect s i t) :
    t.inbox = s.inbox ∧ t.payload = [] ∧
      ∃ r : Response, t.outbox = s.outbox ++ [r] ∧ r.status = 0 := by
  cases i with
  | parse len =>
    obtain ⟨_, _, u, hu, rfl⟩ := he
    obtain ⟨_, _, _, rfl⟩ := loadImage_eq_some.1 hu
    exact ⟨rfl, rfl, _, rfl, rfl⟩
  | serialize => obtain ⟨_, _, _, _, rfl⟩ := he; exact ⟨rfl, rfl, _, rfl, rfl⟩
  | editnib =>
    obtain ⟨_, _, _, _, u, _, hu, rfl⟩ := he
    obtain ⟨_, _, _, rfl⟩ := commitEdit_eq_some.1 hu
    exact ⟨rfl, rfl, _, rfl, rfl⟩
  | editacb =>
    obtain ⟨_, _, _, _, u, _, _, _, hu, _, rfl⟩ := he
    obtain ⟨_, _, _, rfl⟩ := commitEdit_eq_some.1 hu
    exact ⟨rfl, rfl, _, rfl, rfl⟩
  | rdblk => obtain ⟨_, _, _, _, rfl⟩ := he; exact ⟨rfl, rfl, _, rfl, rfl⟩
  | rdac => obtain ⟨_, _, _, _, rfl⟩ := he; exact ⟨rfl, rfl, _, rfl, rfl⟩
  | rdvbs => obtain ⟨_, _, _, _, rfl⟩ := he; exact ⟨rfl, rfl, _, rfl, rfl⟩
  | rdclass => obtain ⟨_, _, rfl⟩ := he; exact ⟨rfl, rfl, _, rfl, rfl⟩
  | rdrow => obtain ⟨_, _, _, rfl⟩ := he; exact ⟨rfl, rfl, _, rfl, rfl⟩
  | rdstat => obtain ⟨_, rfl⟩ := he; exact ⟨rfl, rfl, _, rfl, rfl⟩
  | acdec => obtain ⟨_, rfl⟩ := he; exact ⟨rfl, rfl, _, rfl, rfl⟩
  | acenc => obtain ⟨_, _, _, rfl⟩ := he; exact ⟨rfl, rfl, _, rfl, rfl⟩
  | vbchk => obtain ⟨_, rfl⟩ := he; exact ⟨rfl, rfl, _, rfl, rfl⟩
  | bcc => obtain ⟨_, rfl⟩ := he; exact ⟨rfl, rfl, _, rfl, rfl⟩

/-- Only PARSE writes `LEN`. -/
theorem effect_len {i : Instr} {s t : State} (he : Effect s i t) (hn : ∀ len, i ≠ .parse len) :
    t.len = s.len := by
  cases i with
  | parse len => exact absurd rfl (hn len)
  | serialize => obtain ⟨_, _, _, _, rfl⟩ := he; rfl
  | editnib =>
    obtain ⟨_, _, _, _, u, _, hu, rfl⟩ := he
    obtain ⟨_, _, _, rfl⟩ := commitEdit_eq_some.1 hu; rfl
  | editacb =>
    obtain ⟨_, _, _, _, u, _, _, _, hu, _, rfl⟩ := he
    obtain ⟨_, _, _, rfl⟩ := commitEdit_eq_some.1 hu; rfl
  | rdblk => obtain ⟨_, _, _, _, rfl⟩ := he; rfl
  | rdac => obtain ⟨_, _, _, _, rfl⟩ := he; rfl
  | rdvbs => obtain ⟨_, _, _, _, rfl⟩ := he; rfl
  | rdclass => obtain ⟨_, _, rfl⟩ := he; rfl
  | rdrow => obtain ⟨_, _, _, rfl⟩ := he; rfl
  | rdstat => obtain ⟨_, rfl⟩ := he; rfl
  | acdec => obtain ⟨_, rfl⟩ := he; rfl
  | acenc => obtain ⟨_, _, _, rfl⟩ := he; rfl
  | vbchk => obtain ⟨_, rfl⟩ := he; rfl
  | bcc => obtain ⟨_, rfl⟩ := he; rfl

theorem answer_coherent {s : State} (h : s.Coherent) (st : BitVec 4) (r : Word) (q : List Byte) :
    (answer st r q s).Coherent := h.of_fields rfl rfl rfl rfl rfl

theorem takeCommand_coherent {s : State} (h : s.Coherent) (p : List Byte) (rest : List HostInput) :
    (takeCommand p rest s).Coherent := h.of_fields rfl rfl rfl rfl rfl

theorem reset_coherent : State.reset.Coherent := ⟨.inl rfl, fun _ => rfl, rfl, rfl⟩

theorem effect_coherent {i : Instr} {s t : State} (h : s.Coherent) (he : Effect s i t) :
    t.Coherent := by
  cases i with
  | parse len =>
    obtain ⟨hp, hz, u, hu, rfl⟩ := he
    obtain ⟨u', hu', hc, _⟩ := loadImage_coherent (X := s.payload) (by rw [hp]; exact hz) s
    rw [hu] at hu'; cases hu'; exact answer_coherent hc _ _ _
  | serialize =>
    obtain ⟨_, _, _, _, rfl⟩ := he
    exact ⟨h.len_legal, fun _ => rfl, h.img_exact, h.tables_eq⟩
  | editnib sec blk nib val =>
    obtain ⟨_, hl, _, img, u, hi, hu, rfl⟩ := he
    obtain ⟨img', hi', hx⟩ := nibbleEdit_exact val h.img_exact hl.sec_lt hl.blk_lt nib.isLt
    rw [hi] at hi'; cases hi'
    obtain ⟨u', hu', hc, _⟩ := commitEdit_coherent h hl.loaded hx
    rw [hu] at hu'; cases hu'; exact answer_coherent hc _ _ _
  | editacb sec blk pos bit =>
    obtain ⟨_, hl, j, img, u, _, _, hi, hu, _, rfl⟩ := he
    obtain ⟨img', hi', hx⟩ :=
      accessBitEdit_exact chip.acmap blk.toNat j bit h.img_exact hl.sec_lt
    rw [hi] at hi'; cases hi'
    obtain ⟨u', hu', hc, _⟩ := commitEdit_coherent h hl.loaded hx
    rw [hu] at hu'; cases hu'; exact answer_coherent hc _ _ _
  | rdblk => obtain ⟨_, _, _, _, rfl⟩ := he; exact answer_coherent h _ _ _
  | rdac => obtain ⟨_, _, _, _, rfl⟩ := he; exact answer_coherent h _ _ _
  | rdvbs => obtain ⟨_, _, _, _, rfl⟩ := he; exact answer_coherent h _ _ _
  | rdclass => obtain ⟨_, _, rfl⟩ := he; exact answer_coherent h _ _ _
  | rdrow => obtain ⟨_, _, _, rfl⟩ := he; exact answer_coherent h _ _ _
  | rdstat => obtain ⟨_, rfl⟩ := he; exact answer_coherent h _ _ _
  | acdec => obtain ⟨_, rfl⟩ := he; exact answer_coherent h _ _ _
  | acenc => obtain ⟨_, _, _, rfl⟩ := he; exact answer_coherent h _ _ _
  | vbchk => obtain ⟨_, rfl⟩ := he; exact answer_coherent h _ _ _
  | bcc => obtain ⟨_, rfl⟩ := he; exact answer_coherent h _ _ _

/-! ### The next state of a command -/

/-- A command that gives a next state leaves one response: with status `OK` and its effect, or with
an error of its row and no other change. -/
theorem exec_response {i : Instr} {s t : State} (h : exec i s = .next t) :
    t.inbox = s.inbox ∧ t.payload = [] ∧ ∃ r : Response, t.outbox = s.outbox ++ [r] ∧
      (r.status = 0 ∧ Effect s i t ∨
       ∃ e ∈ errorsOf i, (e = .illegal → ¬ i.WellFormed) ∧ r.status = e.code ∧
         t = answer e.code 0#32 [] s) := by
  rcases exec_cases h with ⟨e, he, hi, rfl⟩ | he
  · exact ⟨rfl, rfl, _, rfl, .inr ⟨e, he, hi, rfl, rfl⟩⟩
  · obtain ⟨h1, h2, r, hr, h0⟩ := effect_interface he
    exact ⟨h1, h2, r, hr, .inl ⟨h0, he⟩⟩

theorem response_unique {s t : State} {r r' : Response} (h : t.outbox = s.outbox ++ [r])
    (h' : t.outbox = s.outbox ++ [r']) : r = r' := by
  rw [h] at h'; simpa using h'

theorem code_ne_zero (e : ErrorStatus) : e.code ≠ 0 := by cases e <;> decide

theorem exec_coherent {i : Instr} {s t : State} (hc : s.Coherent) (h : exec i s = .next t) :
    t.Coherent := by
  rcases exec_cases h with ⟨e, _, _, rfl⟩ | he
  · exact answer_coherent hc _ _ _
  · exact effect_coherent hc he

theorem exec_len {i : Instr} {s t : State} (he : exec i s = .next t)
    (hn : ∀ len, i ≠ .parse len) : t.len = s.len := by
  rcases exec_cases he with ⟨e, _, _, rfl⟩ | he
  · rfl
  · exact effect_len he hn

/-! ### In a coherent state every command gives a next state -/

theorem checkFrame_total {i : Instr} {s : State} {k : Out}
    (h : s.payload.length = i.paylen → ∃ t, k = .next t) : ∃ t, checkFrame i s k = .next t := by
  by_cases hp : s.payload.length = i.paylen
  · rw [checkFrame_of_length hp]; exact h hp
  · unfold checkFrame; rw [if_neg hp]; exact ⟨_, rfl⟩

theorem checkLoaded_total {s : State} {k : Out} (h : s.len ≠ 0#13 → ∃ t, k = .next t) :
    ∃ t, checkLoaded s k = .next t := by
  by_cases hp : s.len = 0#13
  · unfold checkLoaded; rw [if_pos hp]; exact ⟨_, rfl⟩
  · rw [checkLoaded_of_loaded hp]; exact h hp

theorem checkImage_total {s : State} {sec : BitVec 6} {blk : BitVec 4} {k : Out}
    (h : LegalAt s sec blk → ∃ t, k = .next t) :
    ∃ t, checkImage sec.toNat blk.toNat s k = .next t := by
  unfold checkImage
  refine checkLoaded_total fun hl => ?_
  split
  · exact ⟨_, rfl⟩
  · split
    · exact ⟨_, rfl⟩
    · exact h ⟨hl, by omega, by omega⟩

theorem checkPos_total {pos : BitVec 2} {s : State} {k : Fin 3 → Out}
    (h : ∀ j, posOf pos = some j → ∃ t, k j = .next t) : ∃ t, checkPos pos s k = .next t := by
  unfold checkPos; split
  · next j hj => exact h j hj
  · exact ⟨_, rfl⟩

theorem acOf_some {s : State} (h : s.Coherent) {a b : Nat} (ha : a < nsec s.len.toNat) :
    ∃ c, acOf s.act a b = some c := by
  obtain ⟨A, hA, _⟩ := regionOf_of_exact h.img_exact ha
  exact ⟨_, by rw [acOf_actTable h.act ha b, hA]; rfl⟩

theorem vbs_some {s : State} (h : s.Coherent) {a b : Nat} (ha : a < nsec s.len.toNat)
    (hb : b < nblk a) : ∃ c, s.vbs[flat a b]? = some c := by
  have := (vbsTable_eq_some.1 h.vbs).1
  have := flat_lt ha hb
  exact ⟨s.vbs[flat a b], by simp⟩

theorem block_some {s : State} (h : s.Coherent) {a b : Nat} (ha : a < nsec s.len.toNat)
    (hb : b < nblk a) : ∃ q, memRead s.img (off a b) 16 = some q :=
  memRead_of_exact h.img_exact (off_lt ha hb)

/-- What a legal EDITNIB leaves. -/
theorem editnib_effect {s : State} {sec : BitVec 6} {blk : BitVec 4} {nib : BitVec 5}
    (val : BitVec 4) (hp : s.payload = []) (hl : LegalAt s sec blk)
    (hn : isBccNibble sec.toNat blk.toNat nib.toNat = false) (hc : s.Coherent) :
    ∃ img u, nibbleEdit s.img sec.toNat blk.toNat nib.toNat val = some img ∧
      commitEdit img s = some u ∧ u.Coherent ∧ u.img = img ∧ u.len = s.len ∧ u.dirty = true ∧
      u.payload = s.payload ∧ u.inbox = s.inbox ∧ u.outbox = s.outbox ∧
      Effect s (.editnib sec blk nib val) (answer okCode 0#32 [] u) := by
  obtain ⟨img, hi, hx⟩ := nibbleEdit_exact val hc.img_exact hl.sec_lt hl.blk_lt nib.isLt
  obtain ⟨u, hu, hc', h1, h2, h3, h4, h5, h6⟩ := commitEdit_coherent hc hl.loaded hx
  exact ⟨img, u, hi, hu, hc', h1, h2, h3, h4, h5, h6, hp, hl, hn, img, u, hi, hu, rfl⟩

/-- What a legal EDITACB leaves: the region of the trailer encoded, all else as it was. -/
theorem editacb_effect {s : State} {sec : BitVec 6} {blk : BitVec 4} {pos : BitVec 2} {j : Fin 3}
    (bit : Bool) (hj : posOf pos = some j) (hp : s.payload = []) (hl : LegalAt s sec blk)
    (hc : s.Coherent) :
    ∃ img u A B ac, accessBitEdit chip.acmap s.img sec.toNat blk.toNat j bit = some img ∧
      commitEdit img s = some u ∧ u.Coherent ∧ u.img = img ∧ u.len = s.len ∧ u.dirty = true ∧
      u.payload = s.payload ∧ u.inbox = s.inbox ∧ u.outbox = s.outbox ∧
      regionOf s.img sec.toNat = some A ∧ A.length = 4 ∧ regionOf img sec.toNat = some B ∧
      B = acenc chip.acmap A (slotOf sec.toNat blk.toNat) j bit ∧
      (∀ c, (c < accessOff sec.toNat ∨ accessOff sec.toNat + 4 ≤ c) →
        Memory.read img c = Memory.read s.img c) ∧
      acOf u.act sec.toNat blk.toNat = some ac ∧
      ac = acdec chip.acmap B (slotOf sec.toNat blk.toNat) ∧
      Effect s (.editacb sec blk pos bit) (answer okCode ((ac4 ac).setWidth 32) [] u) := by
  obtain ⟨img, hi, hx⟩ := accessBitEdit_exact chip.acmap blk.toNat j bit hc.img_exact hl.sec_lt
  obtain ⟨u, hu, hcu, h1, h2, h3, h4, h5, h6⟩ := commitEdit_coherent hc hl.loaded hx
  obtain ⟨A, hA, hAl, hB, hr⟩ := accessBitEdit_reads hi
  have hac : acOf u.act sec.toNat blk.toNat = some (acdec chip.acmap
      (acenc chip.acmap A (slotOf sec.toNat blk.toNat) j bit) (slotOf sec.toNat blk.toNat)) := by
    rw [acOf_actTable hcu.act (by rw [h2]; exact hl.sec_lt), h1, hB]; rfl
  exact ⟨img, u, A, _, _, hi, hu, hcu, h1, h2, h3, h4, h5, h6, hA, hAl, hB, rfl, hr, hac, rfl, hp,
    hl, j, img, u, _, hj, hi, hu, hac, rfl⟩

theorem exec_total (i : Instr) {s : State} (h : s.Coherent) : ∃ t, exec i s = .next t := by
  cases i with
  | parse len =>
    refine checkFrame_total fun hp => ?_
    split
    · next hz =>
      obtain ⟨u, hu, _⟩ := loadImage_coherent (X := s.payload) (by rw [hp]; exact hz) s
      rw [hu]; exact ⟨_, rfl⟩
    · exact ⟨_, rfl⟩
  | serialize =>
    refine checkFrame_total fun hp => checkLoaded_total fun hl => ?_
    obtain ⟨q, hq⟩ := memRead_of_exact h.img_exact (a := 0) (n := s.len.toNat) (by omega)
    rw [hq]; exact ⟨_, rfl⟩
  | editnib sec blk nib val =>
    refine checkFrame_total fun hp => checkImage_total fun hl => ?_
    split
    · exact ⟨_, rfl⟩
    · next hb =>
      obtain ⟨img, u, hi, hu, _⟩ :=
        editnib_effect val (List.length_eq_zero_iff.1 hp) hl (by simpa using hb) h
      rw [hi]; simp only [needValue_some, hu]; exact ⟨_, rfl⟩
  | editacb sec blk pos bit =>
    refine checkPos_total fun j hj => checkFrame_total fun hp => checkImage_total fun hl => ?_
    obtain ⟨img, u, _, _, _, hi, hu, _, _, _, _, _, _, _, _, _, _, _, _, hac, _⟩ :=
      editacb_effect bit hj (List.length_eq_zero_iff.1 hp) hl h
    rw [hi]; simp only [needValue_some, hu, hac]; exact ⟨_, rfl⟩
  | rdblk sec blk =>
    refine checkFrame_total fun hp => checkImage_total fun hl => ?_
    obtain ⟨q, hq⟩ := block_some h hl.sec_lt hl.blk_lt
    rw [hq]; exact ⟨_, rfl⟩
  | rdac sec blk =>
    refine checkFrame_total fun hp => checkImage_total fun hl => ?_
    obtain ⟨c, hc⟩ := acOf_some h hl.sec_lt (b := blk.toNat)
    rw [hc]; exact ⟨_, rfl⟩
  | rdvbs sec blk =>
    refine checkFrame_total fun hp => checkImage_total fun hl => ?_
    obtain ⟨w, hw⟩ := vbs_some h hl.sec_lt hl.blk_lt
    rw [hw]; exact ⟨_, rfl⟩
  | rdclass => exact checkFrame_total fun _ => checkImage_total fun _ => ⟨_, rfl⟩
  | rdrow =>
    refine checkFrame_total fun _ => checkLoaded_total fun _ => ?_
    split <;> exact ⟨_, rfl⟩
  | rdstat => exact checkFrame_total fun _ => ⟨_, rfl⟩
  | acdec => exact checkFrame_total fun _ => ⟨_, rfl⟩
  | acenc => exact checkPos_total fun _ _ => checkFrame_total fun _ => ⟨_, rfl⟩
  | vbchk => exact checkFrame_total fun _ => ⟨_, rfl⟩
  | bcc => exact checkFrame_total fun _ => ⟨_, rfl⟩

/-! ### A step -/

theorem step_idle {s : State} (hi : s.inbox = []) : step s = .next s := by
  unfold step nextArrival; rw [hi]

theorem step_reset {s : State} {rest : List HostInput} (hi : s.inbox = .reset :: rest) :
    step s = .next (applyReset rest s) := by
  unfold step nextArrival; rw [hi]

theorem step_command {s : State} {h : Word} {p : List Byte} {rest : List HostInput}
    (hi : s.inbox = .command h p :: rest) :
    step s = match decode h with
      | .error _ => raise .illegal (takeCommand p rest s)
      | .ok i    => exec i (takeCommand p rest s) := by
  unfold step nextArrival; rw [hi]; all_goals rfl

/-- A step that gives a next state: idle, reset, an illegal header answered, or a command run. -/
theorem step_cases {s t : State} (h : step s = .next t) :
    (s.inbox = [] ∧ t = s) ∨ (∃ rest, s.inbox = .reset :: rest ∧ t = applyReset rest s) ∨
    ∃ hd p rest, s.inbox = .command hd p :: rest ∧
      ((∃ e, decode hd = .error e) ∧
          t = answer ErrorStatus.illegal.code 0#32 [] (takeCommand p rest s) ∨
       ∃ i, decode hd = .ok i ∧ exec i (takeCommand p rest s) = .next t) := by
  cases hi : s.inbox with
  | nil => rw [step_idle hi] at h; cases h; exact .inl ⟨rfl, rfl⟩
  | cons x rest =>
    cases x with
    | reset => rw [step_reset hi] at h; cases h; exact .inr (.inl ⟨rest, rfl, rfl⟩)
    | command hd p =>
      refine .inr (.inr ⟨hd, p, rest, rfl, ?_⟩)
      rw [step_command hi] at h
      cases hdec : decode hd with
      | error e => rw [hdec] at h; exact .inl ⟨⟨e, rfl⟩, raise_next h⟩
      | ok i => rw [hdec] at h; exact .inr ⟨i, rfl, h⟩

/-- A run takes its first step, then the rest. -/
theorem run_succ {s u : State} (h : step s = .next u) (k : Nat) :
    Host.Core.run core (k + 1) s = Host.Core.run core k u := by
  simp only [Host.Core.run]
  rw [show core.step s = .next u from h]

end Sys2Proof.Machine
end

