-- ==== Sys2Proof/Laws/PerInstr.lean ====
section
/-! SUPPORT. The family `DecodeEncode`: decoding the encoding of a well-formed instruction gives it
back, one lemma per constructor (spec/30_encoding.md R81 to R86). -/

namespace Sys2Proof.Laws.DecodeEncode

open Header

/-- Decode of encode, for one instruction. -/
def Statement (i : Instr) : Prop := i.WellFormed → decode (encode i) = .ok i

theorem parse (len : BitVec 16) : Statement (.parse len) := by
  intro _
  simp only [encode, decode, op_formatL, len_formatL]
  exact selected_of_match _ (mask_formatL _ _)

theorem serialize : Statement .serialize := by
  intro _
  decide

theorem editnib (sec : BitVec 6) (blk : BitVec 4) (nib : BitVec 5) (val : BitVec 4) : Statement (.editnib sec blk nib val) := by
  intro _
  simp only [encode, decode, op_formatA, sec_formatA, blk_formatA, nib_formatA, val_formatA]
  exact selected_of_match _ (mask_formatA_nibble _ _ _ _ _)

theorem editacb (sec : BitVec 6) (blk : BitVec 4) (pos : BitVec 2) (bit : Bool) : Statement (.editacb sec blk pos bit) := by
  intro hw
  simp only [encode, decode, op_formatA, sec_formatA, blk_formatA, pos_formatA, bit_formatA]
  exact selectedPos_of_match _ (mask_formatA_bit _ _ _ _ _) (by simpa [Instr.WellFormed, Instr.wf] using hw)

theorem rdblk (sec : BitVec 6) (blk : BitVec 4) : Statement (.rdblk sec blk) := by
  intro _
  simp only [encode, decode, op_formatA, sec_formatA, blk_formatA]
  exact selected_of_match _ (mask_formatA_block _ _ _)

theorem rdac (sec : BitVec 6) (blk : BitVec 4) : Statement (.rdac sec blk) := by
  intro _
  simp only [encode, decode, op_formatA, sec_formatA, blk_formatA]
  exact selected_of_match _ (mask_formatA_block _ _ _)

theorem rdvbs (sec : BitVec 6) (blk : BitVec 4) : Statement (.rdvbs sec blk) := by
  intro _
  simp only [encode, decode, op_formatA, sec_formatA, blk_formatA]
  exact selected_of_match _ (mask_formatA_block _ _ _)

theorem rdclass (sec : BitVec 6) (blk : BitVec 4) : Statement (.rdclass sec blk) := by
  intro _
  simp only [encode, decode, op_formatA, sec_formatA, blk_formatA]
  exact selected_of_match _ (mask_formatA_block _ _ _)

theorem rdrow (row : BitVec 16) : Statement (.rdrow row) := by
  intro _
  simp only [encode, decode, op_formatL, len_formatL]
  exact selected_of_match _ (mask_formatL _ _)

theorem rdstat : Statement .rdstat := by
  intro _
  decide

theorem acdec (slot : BitVec 2) : Statement (.acdec slot) := by
  intro _
  simp only [encode, decode, op_formatS, slot_formatS]
  exact selected_of_match _ (mask_formatS_slot _ _)

theorem acenc (slot : BitVec 2) (pos : BitVec 2) (bit : Bool) : Statement (.acenc slot pos bit) := by
  intro hw
  simp only [encode, decode, op_formatS, slot_formatS, pos_formatS, bit_formatS]
  exact selectedPos_of_match _ (mask_formatS_bit _ _ _ _) (by simpa [Instr.WellFormed, Instr.wf] using hw)

theorem vbchk : Statement .vbchk := by
  intro _
  decide

theorem bcc (len : BitVec 16) : Statement (.bcc len) := by
  intro _
  simp only [encode, decode, op_formatL, len_formatL]
  exact selected_of_match _ (mask_formatL _ _)

end Sys2Proof.Laws.DecodeEncode
end

