-- ==== Sys2Proof/Tests/Slice0.lean ====
section
/-! SUPPORT. The tests: ill-formed terms refused, header words written out from the spec decoded, one
step of each command on the vectors of spec/95_test_vectors.md, and for each statement with
hypotheses a witness that meets them. -/

namespace Sys2Proof.Tests

open Sys2Proof Sys2Proof.Machine Sys2Proof.Spec

set_option Elab.async false

/-! ### Well-formedness: the one check, `pos = 3` -/

theorem test_wf_editacb_pos3 : (Instr.editacb 1 1 3 true).wf = false := by decide
theorem test_wf_acenc_pos3 : (Instr.acenc 3 3 false).wf = false := by decide

/-! ### Decoding (spec/95_test_vectors.md 2.1; the operands written out as bits) -/

theorem test_decode_parse : decode 0b00010000000000000000000101000000#32 = .ok (.parse 320) := by
  decide
theorem test_decode_serialize : decode 0b00100000000000000000000000000000#32 = .ok .serialize := by
  decide
theorem test_decode_editnib :
    decode 0b00110000010001000010101000000000#32 = .ok (.editnib 1 1 1 5) := by decide
theorem test_decode_editnib_largest : decode 0x39FFFE00#32 = .ok (.editnib 39 15 31 15) := by decide
theorem test_decode_editacb :
    decode 0b01001000000111000000000011000000#32 = .ok (.editacb 32 7 1 true) := by decide
theorem test_decode_rdblk : decode 0b01010000010001000000000000000000#32 = .ok (.rdblk 1 1) := by
  decide
theorem test_decode_rdac : decode 0b01101000000111000000000000000000#32 = .ok (.rdac 32 7) := by
  decide
theorem test_decode_rdvbs : decode 0b01110000010001000000000000000000#32 = .ok (.rdvbs 1 1) := by
  decide
theorem test_decode_rdclass : decode 0b10000000000011000000000000000000#32 = .ok (.rdclass 0 3) := by
  decide
theorem test_decode_rdrow : decode 0b10010000000000000000000010001111#32 = .ok (.rdrow 143) := by
  decide
theorem test_decode_rdstat : decode 0b10100000000000000000000000000000#32 = .ok .rdstat := by decide
theorem test_decode_acdec : decode 0b10110000000000000000000000110000#32 = .ok (.acdec 3) := by
  decide
theorem test_decode_acenc :
    decode 0b11000000000000000000000100110000#32 = .ok (.acenc 3 2 false) := by decide
theorem test_decode_acenc_bit : decode 0xC00000D0#32 = .ok (.acenc 1 1 true) := by decide
theorem test_decode_vbchk : decode 0b11010000000000000000000000000000#32 = .ok .vbchk := by decide
theorem test_decode_bcc : decode 0b11100000000000000000000000000100#32 = .ok (.bcc 4) := by decide

theorem test_illegal_opcode : decode 0x00000000#32 = .error .opcode ∧
    decode 0xF0000000#32 = .error .opcode ∧ decode 0xFFFFFFFF#32 = .error .opcode := by decide
theorem test_illegal_bits : decode 0x20000001#32 = .error .mustBeZero ∧
    decode 0x10010140#32 = .error .mustBeZero ∧ decode 0x30000080#32 = .error .mustBeZero ∧
    decode 0x40002000#32 = .error .mustBeZero ∧ decode 0x50002000#32 = .error .mustBeZero ∧
    decode 0xB0000001#32 = .error .mustBeZero ∧ decode 0xD0000010#32 = .error .mustBeZero ∧
    decode 0xE0010000#32 = .error .mustBeZero := by decide
theorem test_illegal_bits2 : decode 0xA0000140#32 = .error .mustBeZero ∧
    decode 0x60000040#32 = .error .mustBeZero ∧ decode 0xB0000040#32 = .error .mustBeZero ∧
    decode 0x30000001#32 = .error .mustBeZero := by decide
theorem test_illegal_pos : decode 0x40000180#32 = .error .reservedPos ∧
    decode 0xC0000180#32 = .error .reservedPos := by decide
theorem test_legal_neighbours : decode 0x40000100#32 = .ok (.editacb 0 0 2 false) ∧
    decode 0xC0000100#32 = .ok (.acenc 0 2 false) := by decide

/-! ### The test dump (spec/95_test_vectors.md 2.0) -/

def zeroBytes (n : Nat) : List Byte := List.replicate n 0x00

def keyTrailer : List Byte :=
  [0xff, 0xff, 0xff, 0xff, 0xff, 0xff, 0xff, 0x07, 0x80, 0x69, 0xff, 0xff, 0xff, 0xff, 0xff, 0xff]

def uidBlock : List Byte :=
  [0xde, 0xad, 0xbe, 0xef, 0x22, 0x08, 0x04, 0x00, 0x62, 0x63, 0x64, 0x65, 0x66, 0x67, 0x68, 0x69]

def valueBlock : List Byte :=
  [0x64, 0x00, 0x00, 0x00, 0x9b, 0xff, 0xff, 0xff, 0x64, 0x00, 0x00, 0x00, 0x05, 0xfa, 0x05, 0xfa]

def d320 : List Byte :=
  uidBlock ++ zeroBytes 32 ++ keyTrailer ++ (zeroBytes 16 ++ valueBlock ++ zeroBytes 16 ++
    keyTrailer) ++ (zeroBytes 48 ++ keyTrailer) ++ (zeroBytes 48 ++ keyTrailer) ++
    (zeroBytes 48 ++ keyTrailer)

/-- The state after PARSE of a dump, nothing on the interface. -/
def loaded (X : List Byte) : State := (loadImage X State.reset).getD State.reset

/-- `D320` with sector 1's region `fd25a069` and block 1's first byte `65`: the example of
spec/44_addressing.md R196. -/
def dWarning : List Byte :=
  ((((d320.set 80 0x65).set 118 0xfd).set 119 0x25).set 120 0xa0)

def statusOf : Out → Option (BitVec 4)
  | .next t => t.outbox.getLast?.map Response.status
  | _       => none

def resultOf : Out → Option Word
  | .next t => t.outbox.getLast?.map Response.result
  | _       => none

def payloadOf : Out → Option (List Byte)
  | .next t => t.outbox.getLast?.map Response.payload
  | _       => none

/-- The bytes of `IMG` from `a` on after a command. -/
def bytesOf (a n : Nat) : Out → Option (List Byte)
  | .next t => memRead t.img a n
  | _       => none

/-- The state with a command at the interface, and nothing after it. -/
def sent (h : Word) (p : List Byte) (s : State) : State := placeCommand h p s

/-! ### One step of each command (spec/95_test_vectors.md, and the examples of the rules) -/

theorem test_parse : resultOf (exec (.parse 320) { State.reset with payload := d320 }) = some 0x140 ∧
    statusOf (exec (.parse 320) { State.reset with payload := d320 }) = some 0 := by decide +kernel
theorem test_parse_sizes : ∀ n ∈ [0, 319, 321, 1023, 1025],
    statusOf (exec (.parse (BitVec.ofNat 16 n)) { State.reset with payload := zeroBytes n }) =
      some 1 := by decide +kernel

theorem test_serialize :
    payloadOf (exec .serialize (loaded d320)) = some d320 := by decide +kernel
theorem test_serialize_unloaded : statusOf (exec .serialize State.reset) = some 2 := by
  decide +kernel

/-- The UID nibble of R165's example: byte 0 `de` to `1e`, byte 4 `22` to `e2`. -/
theorem test_editnib_uid : bytesOf 0 6 (exec (.editnib 0 0 0 1) (loaded d320)) =
    some [0x1e, 0xad, 0xbe, 0xef, 0xe2, 0x08] := by decide +kernel
/-- The low nibble of program P2, step 5. -/
theorem test_editnib_low : bytesOf 80 2 (exec (.editnib 1 1 1 5) (loaded d320)) =
    some [0x65, 0x00] := by decide +kernel

/-- R170's example. -/
theorem test_editacb : bytesOf 118 4 (exec (.editacb 1 1 0 true) (loaded d320)) =
      some [0xfd, 0x27, 0x80, 0x69] ∧
    resultOf (exec (.editacb 1 1 0 true) (loaded d320)) = some 4 := by decide +kernel
/-- All-zero trailer: one pair fixed, two still inconsistent (program P5, step 10). -/
theorem test_editacb_corrupt :
    resultOf (exec (.editacb 0 0 0 false) (loaded (zeroBytes 320))) = some 8 := by decide +kernel

theorem test_rdblk : payloadOf (exec (.rdblk 1 1) (loaded d320)) = some valueBlock := by
  decide +kernel
theorem test_rdblk_address : statusOf (exec (.rdblk 5 0) (loaded d320)) = some 3 ∧
    statusOf (exec (.rdblk 0 4) (loaded d320)) = some 3 := by decide +kernel

theorem test_rdac : resultOf (exec (.rdac 1 3) (loaded d320)) = some 1 := by decide +kernel
theorem test_rdac_corrupt : resultOf (exec (.rdac 2 1) (loaded (zeroBytes 320))) = some 8 := by
  decide +kernel

theorem test_rdvbs : resultOf (exec (.rdvbs 1 1) (loaded dWarning)) = some 1 := by decide +kernel
theorem test_rdvbs_other : resultOf (exec (.rdvbs 1 2) (loaded dWarning)) = some 0 := by
  decide +kernel

theorem test_rdclass : resultOf (exec (.rdclass 0 3) (loaded d320)) = some 2 := by decide +kernel
theorem test_rdclass_data : resultOf (exec (.rdclass 1 0) (loaded d320)) = some 0 := by
  decide +kernel

theorem test_rdrow : resultOf (exec (.rdrow 143) { State.reset with len := 4096 }) =
    some 0x83E := by decide +kernel
theorem test_rdrow_address : statusOf (exec (.rdrow 20) { State.reset with len := 320 }) =
    some 3 := by decide +kernel

theorem test_rdstat : resultOf (exec .rdstat { State.reset with len := 320, dirty := true }) =
    some 0x01416140 := by decide +kernel
theorem test_rdstat_largest : resultOf (exec .rdstat { State.reset with len := 4096 }) =
    some 0x100A1000 := by decide +kernel

theorem test_acdec : resultOf (exec (.acdec 3)
    { State.reset with payload := [0xff, 0x07, 0x80, 0x69] }) = some 1 := by decide +kernel
theorem test_acdec_corrupt : resultOf (exec (.acdec 2)
    { State.reset with payload := [0xff, 0x43, 0xc0, 0x69] }) = some 8 := by decide +kernel

theorem test_acenc : payloadOf (exec (.acenc 0 0 true)
    { State.reset with payload := [0xff, 0x07, 0x80, 0x69] }) =
      some [0xfe, 0x17, 0x80, 0x69] := by decide +kernel
theorem test_acenc_c2 : payloadOf (exec (.acenc 1 1 true)
    { State.reset with payload := [0xff, 0x07, 0x80, 0x69] }) =
      some [0xdf, 0x07, 0x82, 0x69] := by decide +kernel

theorem test_vbchk : resultOf (exec .vbchk { State.reset with payload := valueBlock }) =
    some 0 := by decide +kernel
/-- Byte 14 made `06`: only the test of the repeated address fails. -/
theorem test_vbchk_warning : resultOf (exec .vbchk
    { State.reset with payload := valueBlock.set 14 0x06 }) = some 1 := by decide +kernel

theorem test_bcc : resultOf (exec (.bcc 4)
    { State.reset with payload := [0xde, 0xad, 0xbe, 0xef] }) = some 0x22 := by decide +kernel
theorem test_bcc_empty : resultOf (exec (.bcc 0) State.reset) = some 0 := by decide +kernel

/-- The exemption of the manufacturer block (vector I9): condition 101, failing bytes, yet OK. -/
theorem test_manufacturer_exempt : blockStatus chip (imageOf 0 d320)
    [#v[.valid 0b101, .valid 0, .valid 0, .valid 1]] 0 0 = some .ok := by decide +kernel
/-- The command placed by the host's table word is the next step's. -/
theorem test_fetch_word :
    resultOf (step ({ State.reset with len := 1024 }.withFetchWord 32 0xA0000000)) =
      some 0x04040400 := by decide +kernel
/-- Illegal wins over framing. -/
theorem test_illegal_first : statusOf (step (sent 0x00000000#32 [1, 2, 3] State.reset)) =
    some 5 := by decide +kernel

/-! ### Witnesses: states and operands that meet the hypotheses of each statement -/

/-- The facts of a loaded state. -/
theorem loaded_facts {X : List Byte} (hX : legalSize X.length = true) :
    (loaded X).Coherent ∧ (loaded X).len.toNat = X.length ∧ (loaded X).payload = [] ∧
      (loaded X).inbox = [] ∧ (loaded X).outbox = [] := by
  obtain ⟨u, hu, hc, _, hl, _, hp, hi, ho⟩ := loadImage_coherent hX State.reset
  have : loaded X = u := by rw [loaded, hu]; rfl
  rw [this]; exact ⟨hc, hl, hp, hi, ho⟩

theorem length_zeroBytes (n : Nat) : (zeroBytes n).length = n := List.length_replicate

theorem small_facts : (loaded (zeroBytes 320)).Coherent ∧
    (loaded (zeroBytes 320)).len.toNat = 320 ∧ (loaded (zeroBytes 320)).payload = [] := by
  obtain ⟨hc, hl, hp, _⟩ := loaded_facts (X := zeroBytes 320) (by rw [length_zeroBytes]; rfl)
  exact ⟨hc, hl.trans (length_zeroBytes 320), hp⟩

theorem large_facts : (loaded (zeroBytes 4096)).Coherent ∧
    (loaded (zeroBytes 4096)).len.toNat = 4096 ∧ (loaded (zeroBytes 4096)).payload = [] := by
  obtain ⟨hc, hl, hp, _⟩ := loaded_facts (X := zeroBytes 4096) (by rw [length_zeroBytes]; rfl)
  exact ⟨hc, hl.trans (length_zeroBytes 4096), hp⟩

theorem legalAt_of {s : State} {n : Nat} {sec : BitVec 6} {blk : BitVec 4} (hl : s.len.toNat = n)
    (hn : n ≠ 0) (hs : sec.toNat < nsec n) (hb : blk.toNat < nblk sec.toNat) :
    LegalAt s sec blk :=
  ⟨fun e => hn (by rw [← hl, e]; rfl), by rw [hl]; exact hs, hb⟩

theorem small_len : (loaded (zeroBytes 320)).len.toNat = 320 := small_facts.2.1
theorem large_len : (loaded (zeroBytes 4096)).len.toNat = 4096 := large_facts.2.1

/-- The first and the last block of the smallest and of the largest image. -/
theorem legal_corners :
    LegalAt (loaded (zeroBytes 320)) 0 0 ∧ LegalAt (loaded (zeroBytes 320)) 4 3 ∧
    LegalAt (loaded (zeroBytes 4096)) 32 0 ∧ LegalAt (loaded (zeroBytes 4096)) 39 15 :=
  ⟨legalAt_of small_len (by decide) (by decide) (by decide),
   legalAt_of small_len (by decide) (by decide) (by decide),
   legalAt_of large_len (by decide) (by decide) (by decide),
   legalAt_of large_len (by decide) (by decide) (by decide)⟩

/-- The hypotheses of the statements about a legal block: idle, legal, coherent. -/
theorem witness_legal_block : ∃ (s : State) (sec : BitVec 6) (blk : BitVec 4),
    s.payload = [] ∧ LegalAt s sec blk ∧ s.Coherent ∧ sec = 39 ∧ blk = 15 :=
  ⟨_, 39, 15, large_facts.2.2, legal_corners.2.2.2, large_facts.1, rfl, rfl⟩

theorem not_legal_zero : ¬ LegalHeader 0x00000000#32 := by
  rintro ⟨r, hr, hs⟩
  simp only [headerTable, List.mem_cons, List.not_mem_nil, or_false] at hr
  rcases hr with rfl | rfl | rfl | rfl | rfl | rfl | rfl | rfl | rfl | rfl | rfl | rfl | rfl | rfl
  all_goals exact absurd hs.1 (by decide)

/-- The next state of a command in a coherent state, with its response. -/
theorem next_of_coherent (i : Instr) {s : State} (h : s.Coherent) :
    ∃ t r, exec i s = .next t ∧ t.outbox = s.outbox ++ [r] := by
  obtain ⟨t, ht⟩ := exec_total i h
  obtain ⟨_, _, r, hr, _⟩ := exec_response ht
  exact ⟨t, r, ht, hr⟩

theorem witness_DecoderFollowsMatchAndMask : ∃ r ∈ headerTable, r.Selects 0x10000140#32 :=
  ⟨_, List.mem_cons_self, by decide, nofun⟩

theorem witness_IllegalHeaderIsAnsweredIllegal : ∃ (s : State) (h : Word) (p : List Byte)
    (rest : List HostInput), s.inbox = .command h p :: rest ∧ ¬ LegalHeader h :=
  ⟨sent 0x00000000#32 [1] State.reset, _, _, _, rfl, not_legal_zero⟩

theorem witness_DecodeOfEncodeIsIdentity : (Instr.editacb 39 15 2 true).WellFormed ∧
    (Instr.acenc 3 2 false).WellFormed ∧ (Instr.bcc 65535).WellFormed := ⟨rfl, rfl, rfl⟩

theorem witness_EncodeOfDecodeIsIdentity : ∃ h i, decode h = .ok i :=
  ⟨0x39FFFE00#32, .editnib 39 15 31 15, by decide⟩

theorem witness_StepRunsDecodedCommand : ∃ (s : State) (h : Word) (p : List Byte)
    (rest : List HostInput) (i : Instr), s.inbox = .command h p :: rest ∧ decode h = .ok i :=
  ⟨sent 0xA0000000#32 [] State.reset, _, _, _, .rdstat, rfl, by decide⟩

theorem witness_IdleStepChangesNothing : State.reset.inbox = [] := rfl

theorem witness_ResetLeavesUnloadedBlock :
    (∃ (s : State) (rest : List HostInput), s.inbox = .reset :: rest ∧ s.len = 320) ∧
    (∃ (i : Instr) (p : List Byte), i.WellFormed ∧ p.length = payloadLength i ∧
      needsImage i = true) ∧
    ∃ (len : BitVec 16) (p : List Byte), p.length = len.toNat ∧ len.toNat = 4096 :=
  ⟨⟨{ State.reset with len := 320, inbox := [.reset] }, [], rfl, rfl⟩,
   ⟨.editacb 39 15 2 true, [], rfl, rfl, rfl⟩, ⟨4096, zeroBytes 4096, length_zeroBytes _, rfl⟩⟩

theorem sent_inv {s : State} (hc : s.Coherent) (hp : s.payload = []) (h : Word) (p : List Byte) :
    (sent h p s).Inv := ⟨hc.of_fields rfl rfl rfl rfl rfl, hp⟩

theorem inv_sent (h : Word) (p : List Byte) : (sent h p (loaded (zeroBytes 320))).Inv :=
  sent_inv small_facts.1 small_facts.2.2 h p

theorem witness_StepKeepsInvariant : ∃ s t : State, s.Inv ∧ step s = .next t := by
  have hi := inv_sent 0x30442A00#32 []
  have hc := takeCommand_coherent hi.coherent [] (loaded (zeroBytes 320)).inbox
  obtain ⟨t, ht⟩ := exec_total (.editnib 1 1 1 5) hc
  exact ⟨_, t, hi, by
    rw [step_command (s := sent 0x30442A00#32 [] (loaded (zeroBytes 320))) rfl,
      show decode 0x30442A00#32 = .ok (.editnib 1 1 1 5) by decide]; exact ht⟩

theorem witness_EveryCommandGetsOneResponse : ∃ (s : State) (h : Word) (p : List Byte)
    (rest : List HostInput), s.Inv ∧ s.inbox = .command h p :: rest :=
  ⟨_, 0x10000400#32, [1, 2], _, inv_sent _ _, rfl⟩

theorem witness_InvariantGivesCanonicalStore : ∃ s : State, s.Coherent ∧ s.len.toNat = 4096 :=
  ⟨_, large_facts.1, large_len⟩

theorem witness_ErrorResponseLeavesNoTrace : ∃ (s t : State) (h : Word) (p : List Byte)
    (rest : List HostInput) (r : Response), s.inbox = .command h p :: rest ∧ step s = .next t ∧
      t.outbox = s.outbox ++ [r] ∧ r.status ≠ 0 :=
  ⟨sent 0x20000000#32 [] State.reset,
    (takeCommand [] [] State.reset).replied 2#4 0#32 [], _, _, _, _, rfl, rfl, rfl, by decide⟩

theorem witness_WrongPayloadLengthIsFrameError :
    (∃ (i : Instr) (s : State), i.WellFormed ∧ s.payload.length ≠ payloadLength i ∧ i = .parse 320) ∧
    ∃ (i : Instr) (s : State), i.WellFormed ∧ s.payload.length ≠ payloadLength i ∧ i = .rdstat :=
  ⟨⟨.parse 320, { State.reset with payload := zeroBytes 319 }, rfl, by decide +kernel, rfl⟩,
   ⟨.rdstat, { State.reset with payload := [0] }, rfl, by decide, rfl⟩⟩

theorem witness_ParseOfOtherSizeIsInvalidSize :
    (∃ (s : State) (len : BitVec 16), s.payload.length = len.toNat ∧
      ¬ (len.toNat = 320 ∨ len.toNat = 1024 ∨ len.toNat = 4096) ∧ len = 321) ∧
    ∃ (i : Instr) (s t : State) (r : Response), exec i s = .next t ∧
      t.outbox = s.outbox ++ [r] ∧ r.status = 1 :=
  ⟨⟨{ State.reset with payload := zeroBytes 321 }, 321, length_zeroBytes _, by decide, rfl⟩,
   ⟨.parse 0, State.reset, State.reset.replied 1#4 0#32 [], _, rfl, rfl, rfl⟩⟩

theorem witness_UnloadedBlockAnswersNotLoaded :
    (∃ (i : Instr) (s : State), i.WellFormed ∧ s.payload.length = payloadLength i ∧ s.len = 0 ∧
      needsImage i = true) ∧
    ∃ (i : Instr) (s : State), i.WellFormed ∧ s.payload.length = payloadLength i ∧ s.len = 0 ∧
      needsImage i = false :=
  ⟨⟨.editacb 1 1 2 true, State.reset, rfl, rfl, rfl, rfl⟩,
   ⟨.acdec 3, { State.reset with payload := [0, 0, 0, 0] }, rfl, rfl, rfl, rfl⟩⟩

theorem low_bcc_nibble_refused {s : State} (hp : s.payload = []) (hl : LegalAt s 0 0) :
    exec (.editnib 0 0 9 0) s = .next (s.replied 4#4 0#32 []) := by
  show checkFrame _ _ _ = _
  rw [checkFrame_of_length (by rw [hp]; rfl), checkImage_of_legal hl]
  rfl

theorem witness_OnlyBccNibblesAreProtected :
    (∀ nib : BitVec 5, nib = 8 ∨ nib = 9 → ∃ s : State, s.payload = [] ∧ LegalAt s 0 0) ∧
    ∃ (i : Instr) (s t : State) (r : Response), exec i s = .next t ∧
      t.outbox = s.outbox ++ [r] ∧ r.status = 4 :=
  ⟨fun _ _ => ⟨_, small_facts.2.2, legal_corners.1⟩, .editnib 0 0 9 0, loaded (zeroBytes 320), _,
    ⟨4#4, 0#32, []⟩, low_bcc_nibble_refused small_facts.2.2 legal_corners.1, rfl, rfl⟩

theorem witness_StatusIsOneTheCommandMayRaise : ∃ (i : Instr) (s t : State) (r : Response),
    i.WellFormed ∧ exec i s = .next t ∧ t.outbox = s.outbox ++ [r] ∧ r.status ≠ 0 :=
  ⟨.rdrow 0, State.reset, State.reset.replied 2#4 0#32 [], _, rfl, rfl, rfl, by decide⟩

/-- The three cases of PARSE, at the edges of the sizes. -/
theorem witness_ParseFollowsRule :
    (∃ (s : State) (len : BitVec 16), s.payload.length ≠ len.toNat ∧ len = 320) ∧
    (∃ (s : State) (len : BitVec 16), s.payload.length = len.toNat ∧
      ¬ (len.toNat = 320 ∨ len.toNat = 1024 ∨ len.toNat = 4096) ∧ len = 319) ∧
    ∀ len : BitVec 16, len.toNat = 320 ∨ len.toNat = 1024 ∨ len.toNat = 4096 →
      ∃ s : State, s.payload.length = len.toNat :=
  ⟨⟨State.reset, 320, by decide, rfl⟩,
   ⟨{ State.reset with payload := zeroBytes 319 }, 319, length_zeroBytes _, by decide, rfl⟩,
   fun len _ => ⟨{ State.reset with payload := zeroBytes len.toNat }, List.length_replicate⟩⟩

/-- An opcode whose header has a bit the row makes zero, for `AnswersIllegal`. -/
theorem witness_AnswersIllegal : ∃ (s : State) (h : Word) (p : List Byte)
    (rest : List HostInput), s.inbox = .command h p :: rest ∧ h.extractLsb' 28 4 = 0x1#4 ∧
      h.extractLsb' 16 12 ≠ 0 :=
  ⟨sent 0x10010140#32 [] State.reset, _, _, _, rfl, by decide, by decide⟩

theorem witness_ParseReplacesWholeState :
    (∃ (s s' : State) (len : BitVec 16), s.payload.length = len.toNat ∧ s'.payload = s.payload ∧
      (len.toNat = 320 ∨ len.toNat = 1024 ∨ len.toNat = 4096) ∧ s.dirty ≠ s'.dirty) ∧
    ∃ (s t : State) (len : BitVec 16) (r : Response), exec (.parse len) s = .next t ∧
      t.outbox = s.outbox ++ [r] ∧ r.status ≠ 0 :=
  ⟨⟨{ State.reset with payload := zeroBytes 320 },
    { State.reset with payload := zeroBytes 320, dirty := true }, 320, length_zeroBytes _, rfl,
    by decide, by decide⟩,
   ⟨State.reset, State.reset.replied 6#4 0#32 [], 320, _, rfl, rfl, by decide⟩⟩

theorem witness_SerializeFollowsRule :
    (∃ s : State, s.payload ≠ []) ∧ (∃ s : State, s.payload = [] ∧ s.len = 0) ∧
    ∃ s : State, s.payload = [] ∧ s.len ≠ 0 ∧ s.Coherent :=
  ⟨⟨{ State.reset with payload := [0] }, nofun⟩, ⟨State.reset, rfl, rfl⟩,
   ⟨_, large_facts.2.2, legal_corners.2.2.2.loaded, large_facts.1⟩⟩

/-- Between the PARSE and the SERIALIZE: an edit, a PARSE of a size that is not legal, and an illegal
header. -/
theorem witness_SerializedBytesDifferOnlyByEdits : ∃ (s : State) (len : BitVec 16)
    (X : List Byte) (cmds : List (Word × List Byte)) (rest : List HostInput),
    X.length = len.toNat ∧ (len.toNat = 320 ∨ len.toNat = 1024 ∨ len.toNat = 4096) ∧
    (∀ c ∈ cmds, ¬ ParseSucceeds c) ∧ cmds ≠ [] ∧
    s.inbox = .command (0x1000#16 ++ len) X ::
      (cmds.map fun c => HostInput.command c.1 c.2) ++ .command 0x20000000#32 [] :: rest := by
  refine ⟨{ State.reset with inbox := [.command 0x10000140#32 d320, .command 0x30000200#32 [],
      .command 0x10000001#32 [0x00], .command 0x00000000#32 [], .command 0x20000000#32 []] }, 320,
    d320, [(0x30000200#32, []), (0x10000001#32, [0x00]), (0x00000000#32, [])], [],
    by decide +kernel, by decide, ?_, nofun, rfl⟩
  intro c hc
  simp only [List.mem_cons, List.not_mem_nil, or_false] at hc
  rcases hc with rfl | rfl | rfl
  · rintro ⟨len, hd, -, -⟩
    rw [show decode 0x30000200#32 = .ok (.editnib 0 0 0 1) by decide] at hd
    cases hd
  · rintro ⟨len, -, hp, hz⟩
    have : len.toNat = 1 := hp.symm
    omega
  · rintro ⟨len, hd, -, -⟩
    rw [show decode 0x00000000#32 = .error .opcode by decide] at hd
    cases hd

/-- The errors of a command that addresses a block: payload, no image, sector 5 of five, block 4 of
four. -/
theorem witness_ImageErrors : (∃ s : State, s.payload ≠ []) ∧
    (∃ s : State, s.payload = [] ∧ s.len = 0) ∧
    ∃ s : State, s.payload = [] ∧ s.len ≠ 0 ∧ nsec s.len.toNat ≤ 5 ∧ nblk 0 ≤ 4 :=
  ⟨⟨{ State.reset with payload := [0] }, nofun⟩, ⟨State.reset, rfl, rfl⟩,
   ⟨_, small_facts.2.2, legal_corners.1.loaded, by rw [small_len]; decide, by decide⟩⟩

/-- A protected nibble; an even and an odd one; one of the UID; each in a legal block. -/
theorem witness_EditnibFollowsRule : ∃ s : State, s.payload = [] ∧ s.Coherent ∧
    LegalAt s 0 0 ∧ LegalAt s 4 3 ∧
    ((0 : BitVec 6) = 0 ∧ (0 : BitVec 4) = 0 ∧ ((8 : BitVec 5) = 8 ∨ (8 : BitVec 5) = 9)) ∧
    ¬ ((0 : BitVec 6) = 0 ∧ (0 : BitVec 4) = 0 ∧ ((7 : BitVec 5) = 8 ∨ (7 : BitVec 5) = 9)) ∧
    (7 : BitVec 5).toNat ≤ 7 ∧ (31 : BitVec 5).toNat % 2 = 1 ∧ (30 : BitVec 5).toNat % 2 = 0 :=
  ⟨_, small_facts.2.2, small_facts.1, legal_corners.1, legal_corners.2.1, by decide, by decide,
    by decide, by decide, by decide⟩

theorem witness_EditacbFollowsRule : ∃ (s : State) (pos : BitVec 2) (j : Fin 3),
    pos.toNat = j.val ∧ s.payload = [] ∧ LegalAt s 39 15 ∧ s.Coherent ∧ j = 2 :=
  ⟨_, 2, 2, rfl, large_facts.2.2, legal_corners.2.2.2, large_facts.1, rfl⟩

/-- A block of the slot named, a block of the same sector outside it, and one of another sector. -/
theorem witness_EditacbChangesOnlyItsSlot : ∃ s : State, s.payload = [] ∧ LegalAt s 39 15 ∧
    s.Coherent ∧ (2 : BitVec 2) ≠ 3 ∧ 39 < nsec s.len.toNat ∧ 14 < nblk 39 ∧
    slotOf 39 14 ≠ slotOf 39 15 ∧ 0 < nsec s.len.toNat ∧ 3 < nblk 0 :=
  ⟨_, large_facts.2.2, legal_corners.2.2.2, large_facts.1, by decide,
    by rw [large_len]; decide, by decide, by decide, by rw [large_len]; decide, by decide⟩

theorem witness_ThreeEditacbMakeSlotValid : ∃ (s : State) (p0 p1 p2 : BitVec 2),
    s.payload = [] ∧ LegalAt s 4 3 ∧ s.Coherent ∧ p0 ≠ 3 ∧ p1 ≠ 3 ∧ p2 ≠ 3 ∧ p0 ≠ p1 ∧ p0 ≠ p2 ∧
    p1 ≠ p2 :=
  ⟨_, 2, 0, 1, small_facts.2.2, legal_corners.2.1, small_facts.1, by decide, by decide, by decide,
    by decide, by decide, by decide⟩

/-- The three cases of a nibble, each at the edges of its range: 12 and 17 of a trailer; a data block;
11 and 18 of a trailer, and the manufacturer block. -/
theorem witness_EditnibChangesOnlyNamedTableEntries : ∃ s : State, s.payload = [] ∧ s.Coherent ∧
    (LegalAt s 39 15 ∧ (15 : BitVec 4).toNat = tb 39 ∧
      (∀ nib : BitVec 5, nib = 12 ∨ nib = 17 → 12 ≤ nib.toNat ∧ nib.toNat ≤ 17) ∧
      ∀ nib : BitVec 5, nib = 11 ∨ nib = 18 → ¬ (12 ≤ nib.toNat ∧ nib.toNat ≤ 17)) ∧
    (LegalAt s 32 0 ∧ (0 : BitVec 4).toNat ≠ tb 32 ∧ ¬ ((32 : BitVec 6) = 0 ∧ (0 : BitVec 4) = 0)) ∧
    LegalAt s 0 0 ∧ ¬ ((11 : BitVec 5) = 8 ∨ (11 : BitVec 5) = 9) :=
  ⟨_, large_facts.2.2, large_facts.1,
    ⟨legal_corners.2.2.2, by decide, by decide, by decide⟩,
    ⟨legal_corners.2.2.1, by decide, by decide⟩,
    legalAt_of large_len (by decide) (by decide) (by decide), by decide⟩

theorem witness_RebuildComputesEveryEntry : ∃ (len : Nat) (img : Memory) (act : List AcRow)
    (vbs : List VbStatus), (len = 320 ∨ len = 1024 ∨ len = 4096) ∧
      tables chip len img = some (act, vbs) :=
  ⟨_, _, _, _, .inr (.inr large_len), large_facts.1.tables_eq⟩

theorem witness_RebuildIsTotal : ∃ (len : Nat) (img : Memory),
    (len = 320 ∨ len = 1024 ∨ len = 4096) ∧ ∀ a < len, (Memory.read img a).isSome = true :=
  ⟨_, _, .inr (.inr large_len), fun _ ha => (read_isSome_of_exact large_facts.1.img_exact).2 ha⟩

/-- The cases of the status: corrupt, a code outside the set, and an eligible block. -/
theorem witness_BlockStatusFollowsRule :
    acOf [#v[.corrupt, .valid 0, .valid 1, .valid 1]] 0 0 = some .corrupt ∧
    acOf [#v[.corrupt, .valid 0, .valid 1, .valid 1]] 0 1 = some (.valid 0) ∧
      (0 : BitVec 3) ∉ chip.vbCodes ∧
    acOf [#v[.corrupt, .valid 0, .valid 1, .valid 1]] 0 2 = some (.valid 1) ∧
      (1 : BitVec 3) ∈ chip.vbCodes ∧ (2 : Nat) ≠ tb 0 ∧
      ∃ B, memRead (imageOf 0 d320) (off 0 2) 16 = some B := by
  refine ⟨by decide, by decide, by decide, by decide, by decide, by decide, ?_⟩
  exact memRead_of_exact (imageOf_zero_addresses d320) (by decide +kernel)

theorem witness_OnlyNamedBytesChange : ∃ (i : Instr) (s t : State), exec i s = .next t ∧
    i = .editnib 0 0 7 15 := by
  obtain ⟨t, _, ht, _⟩ := next_of_coherent (.editnib 0 0 7 15) small_facts.1
  exact ⟨_, _, t, ht, rfl⟩

/-- Idle, reset, an illegal header, a command; and a command other than RDSTAT. -/
theorem witness_DirtyFlagFollowsRule :
    (∃ s t : State, step s = .next t ∧ s.inbox = []) ∧
    (∃ s t : State, step s = .next t ∧ s.inbox = [.reset]) ∧
    (∃ s t : State, step s = .next t ∧ s.inbox = [.command 0x00000000#32 []] ∧
      ¬ LegalHeader 0x00000000#32) ∧
    (∃ (s t : State) (r : Response), step s = .next t ∧ s.inbox = [.command 0xD0000000#32 []] ∧
      decode 0xD0000000#32 = .ok .vbchk ∧ t.outbox = s.outbox ++ [r]) ∧
    ∃ (i : Instr) (s t : State), i ≠ .rdstat ∧ exec i s = .next t :=
  ⟨⟨State.reset, State.reset, rfl, rfl⟩,
   ⟨{ State.reset with inbox := [.reset] }, State.reset, rfl, rfl⟩,
   ⟨sent 0x00000000#32 [] State.reset, State.reset.replied 5#4 0#32 [], rfl, rfl, not_legal_zero⟩,
   ⟨sent 0xD0000000#32 [] State.reset, State.reset.replied 6#4 0#32 [], _, rfl, rfl, by decide,
    rfl⟩,
   ⟨.vbchk, State.reset, State.reset.replied 6#4 0#32 [], nofun, rfl⟩⟩

theorem witness_LengthChangesOnlyByParseOrReset : ∃ s t : State, step s = .next t ∧
    t.len ≠ s.len :=
  ⟨{ State.reset with len := 320, inbox := [.reset] }, State.reset, rfl, by decide⟩

/-- Legal operands at the edges, for each shape of operand. -/
theorem witness_LegalCommandCompletes :
    ∃ s : State, s.Coherent ∧ s.payload = [] ∧
      (∀ i ∈ [Instr.serialize, .editnib 39 15 31 15, .editacb 39 15 2 true, .rdblk 39 15,
          .rdac 39 15, .rdvbs 39 15, .rdclass 39 15, .rdrow 255, .rdstat, .bcc 0],
        i.WellFormed ∧ s.payload.length = payloadLength i ∧ OperandsLegal s i) ∧
      (∀ i ∈ [Instr.acdec 3, .acenc 3 2 true], i.WellFormed ∧ payloadLength i = 4) ∧
      payloadLength .vbchk = 16 ∧ OperandsLegal s (.parse 4096) := by
  refine ⟨_, large_facts.1, large_facts.2.2, ?_, by decide, rfl, .inr (.inr rfl)⟩
  have hl := legal_corners.2.2.2
  intro i hi
  simp only [List.mem_cons, List.not_mem_nil, or_false] at hi
  rw [large_facts.2.2]
  rcases hi with rfl | rfl | rfl | rfl | rfl | rfl | rfl | rfl | rfl | rfl
  · exact ⟨rfl, rfl, hl.loaded⟩
  · exact ⟨rfl, rfl, hl, by decide⟩
  · exact ⟨rfl, rfl, hl⟩
  · exact ⟨rfl, rfl, hl⟩
  · exact ⟨rfl, rfl, hl⟩
  · exact ⟨rfl, rfl, hl⟩
  · exact ⟨rfl, rfl, hl⟩
  · exact ⟨rfl, rfl, hl.loaded, by rw [large_len]; decide⟩
  · exact ⟨rfl, rfl, trivial⟩
  · exact ⟨rfl, rfl, trivial⟩

/-- The commands with a payload, in coherent states: reset with the payload on the interface. -/
theorem witness_LegalCommandCompletes_payload :
    ∀ c ∈ [(Instr.acdec 3, [0xff, 0x07, 0x80, 0x69]), (.acenc 3 2 true, [0xff, 0x07, 0x80, 0x69]),
        (.vbchk, valueBlock), (.bcc 2, [0xde, 0xad]), (.parse 320, d320)],
      c.1.WellFormed ∧ ({ State.reset with payload := c.2 } : State).payload.length =
        payloadLength c.1 ∧ ({ State.reset with payload := c.2 } : State).Coherent ∧
        OperandsLegal { State.reset with payload := c.2 } c.1 := by
  intro c hc
  simp only [List.mem_cons, List.not_mem_nil, or_false] at hc
  rcases hc with rfl | rfl | rfl | rfl | rfl
  · exact ⟨rfl, rfl, reset_coherent.of_fields rfl rfl rfl rfl rfl, trivial⟩
  · exact ⟨rfl, rfl, reset_coherent.of_fields rfl rfl rfl rfl rfl, trivial⟩
  · exact ⟨rfl, rfl, reset_coherent.of_fields rfl rfl rfl rfl rfl, trivial⟩
  · exact ⟨rfl, rfl, reset_coherent.of_fields rfl rfl rfl rfl rfl, trivial⟩
  · exact ⟨rfl, by decide +kernel, reset_coherent.of_fields rfl rfl rfl rfl rfl, .inl rfl⟩

/-- The legal case of RDBLK; its error cases are those of `witness_ImageErrors`. -/
theorem witness_RdblkFollowsRule : ∃ s : State, s.payload = [] ∧ LegalAt s 39 15 ∧ s.Coherent :=
  ⟨_, large_facts.2.2, legal_corners.2.2.2, large_facts.1⟩

theorem witness_RdacFollowsRule : ∃ s : State, s.payload = [] ∧ LegalAt s 32 0 ∧ s.Coherent :=
  ⟨_, large_facts.2.2, legal_corners.2.2.1, large_facts.1⟩

/-- The three classes: manufacturer, trailer, data. -/
theorem witness_RdclassFollowsRule : ∃ s : State, s.payload = [] ∧ LegalAt s 0 0 ∧
    LegalAt s 4 3 ∧ (3 : BitVec 4).toNat = (if (4 : BitVec 6).toNat < 32 then 3 else 15) ∧
    (2 : BitVec 4).toNat ≠ (if (4 : BitVec 6).toNat < 32 then 3 else 15) :=
  ⟨_, small_facts.2.2, legal_corners.1, legal_corners.2.1, by decide, by decide⟩

theorem witness_ReadsAndStatelessCommandsChangeNothing : ∃ (i : Instr) (s t : State),
    readOnly i = true ∧ exec i s = .next t ∧ s.len.toNat = 4096 := by
  obtain ⟨t, _, ht, _⟩ := next_of_coherent (.rdblk 39 15) large_facts.1
  exact ⟨_, _, t, rfl, ht, large_len⟩

theorem witness_RepeatedCommandChangesNothingMore : ∃ (i : Instr) (s t : State) (r : Response),
    s.Coherent ∧ exec i s = .next t ∧ t.outbox = s.outbox ++ [r] ∧ i = .editacb 39 15 2 true := by
  obtain ⟨t, r, ht, hr⟩ := next_of_coherent (.editacb 39 15 2 true) large_facts.1
  exact ⟨_, _, t, r, large_facts.1, ht, hr, rfl⟩

/-- The three cases of a row index, at the last legal row and the first that is not. -/
theorem witness_RdrowFollowsRule : ∃ s : State, s.payload = [] ∧ s.len ≠ 0 ∧ s.Coherent ∧
    (255 : BitVec 16).toNat < s.len.toNat / 16 ∧ s.len.toNat / 16 ≤ (256 : BitVec 16).toNat :=
  ⟨_, large_facts.2.2, legal_corners.2.2.2.loaded, large_facts.1, by rw [large_len]; decide,
    by rw [large_len]; decide⟩

/-- Corrupt condition and a code outside the set, in coherent states, for RDVBS. -/
theorem witness_RdvbsFollowsRule :
    acOf (loaded (zeroBytes 320)).act 1 1 = some .corrupt ∧
    acOf (loaded d320).act 1 1 = some (.valid 0) ∧ (0 : BitVec 3) ∉ chip.vbCodes := by
  decide +kernel

theorem witness_RdstatFollowsRule : (∃ s : State, s.payload ≠ []) ∧
    (∃ s : State, s.payload = [] ∧ s.len ≠ 0) ∧
    ∃ s : State, s.payload = [] ∧ s.len = 0 ∧ s.Coherent :=
  ⟨⟨{ State.reset with payload := [0] }, nofun⟩,
   ⟨_, large_facts.2.2, legal_corners.2.2.2.loaded⟩, ⟨State.reset, rfl, rfl, reset_coherent⟩⟩

theorem witness_RowAddressIsNeverAddressError : ∃ (s t : State) (row : BitVec 16) (r : Response),
    s.Coherent ∧ s.payload = [] ∧ exec (.rdrow row) s = .next t ∧ t.outbox = s.outbox ++ [r] ∧
      r.status = 0 ∧ row = 255 := by
  have hl := legal_corners.2.2.2
  refine ⟨loaded (zeroBytes 4096), _, 255, _, large_facts.1, large_facts.2.2,
    exec_of_effect (i := .rdrow 255) ⟨large_facts.2.2, hl.loaded, by rw [large_len]; decide, rfl⟩,
    rfl, rfl, rfl⟩

/-- A region that decodes and one that does not, for ACDEC and the decode. -/
theorem witness_AcdecFollowsRule :
    (∀ j, getbit [0xff, 0x0f, 0x00, 0x00] (chip.acmap 3 j).direct =
      !getbit [0xff, 0x0f, 0x00, 0x00] (chip.acmap 3 j).inverted) ∧
    ¬ (∀ j, getbit [0xff, 0x17, 0x80, 0x69] (chip.acmap 0 j).direct =
      !getbit [0xff, 0x17, 0x80, 0x69] (chip.acmap 0 j).inverted) := by decide

theorem witness_AcencFollowsRule : ∃ (pos : BitVec 2) (j : Fin 3) (s : State),
    pos.toNat = j.val ∧ s.payload.length = 4 ∧ j = 2 :=
  ⟨2, 2, { State.reset with payload := [0, 0, 0, 0] }, rfl, rfl, rfl⟩

theorem witness_VbchkFollowsRule : ValueBlockPasses valueBlock ∧
    ¬ ValueBlockPasses (zeroBytes 16) ∧ valueBlock.length = 16 := by
  refine ⟨by unfold ValueBlockPasses; decide, by unfold ValueBlockPasses; decide, rfl⟩

theorem witness_BccFollowsRule : ∃ (s : State) (len : BitVec 16),
    s.payload.length = len.toNat ∧ len = 0 := ⟨State.reset, 0, rfl, rfl⟩

/-- A well-formed table, a region, and the cases of laws (c) to (g): another slot, another pair, a
valid slot, a corrupt slot that the encode mends and one it does not. -/
theorem witness_CodecLawsHoldForEveryAcmap : chip.acmap.WellFormed ∧
    acdec chip.acmap [0xff, 0x07, 0x80, 0x69] 3 = .valid 1 ∧
    acdec chip.acmap [0xff, 0x17, 0x80, 0x69] 0 = .corrupt ∧
    (∀ j' : Fin 3, j' ≠ 0 → getbit [0xff, 0x17, 0x80, 0x69] (chip.acmap 0 j').direct =
      !getbit [0xff, 0x17, 0x80, 0x69] (chip.acmap 0 j').inverted) ∧
    acdec chip.acmap [0x00, 0x00, 0x00, 0x00] 0 = .corrupt ∧
    ¬ (∀ j' : Fin 3, j' ≠ 0 → getbit [0x00, 0x00, 0x00, 0x00] (chip.acmap 0 j').direct =
      !getbit [0x00, 0x00, 0x00, 0x00] (chip.acmap 0 j').inverted) :=
  ⟨chip_wf, by decide, by decide, by decide, by decide, by decide⟩

theorem witness_AllEqualBitsDecodeCorrupt : ∀ j,
    getbit [0xff, 0xff, 0xff, 0xff] (chip.acmap 3 j).direct = true ∧
    getbit [0xff, 0xff, 0xff, 0xff] (chip.acmap 3 j).inverted = true := by decide

theorem witness_ValueBlockCheckLaws : valueBlock.length = 16 ∧ vbcheck valueBlock = .ok ∧
    valueBlock[15]? ≠ some 0xfb := by decide

theorem witness_ChecksumLaws : List.Perm [0x01#8, 0x02#8] [0x02#8, 0x01#8] := by decide

theorem witness_GeometryFollowsFormulas : nblk 31 = 4 ∧ nblk 32 = 16 ∧ addr 127 = (31, 3) ∧
    addr 128 = (32, 0) := by decide

/-- The edges of the two kinds of sector. -/
theorem witness_SlotOfBlockFollowsRule : 3 < nblk 31 ∧ nblk 31 = 4 ∧ 15 < nblk 32 ∧
    nblk 32 = 16 ∧ 15 = tb 32 := by decide

theorem witness_RowMapLaws : 255 < nblocks 4096 ∧ 39 < nsec 4096 ∧ 15 < nblk 39 := by decide

theorem witness_BlocksTileTheImage : 39 < nsec 4096 ∧ 15 < nblk 39 ∧ 31 < nsec 4096 ∧
    3 < nblk 31 ∧ off 39 15 + 15 = 4095 := by decide

end Sys2Proof.Tests
end

section
/-! The state family (spec/10_state.md): the invariant, the canonical store, what reset leaves, who
writes `LEN` and `DIRTY`, and the geometry. -/

namespace Sys2Proof.Machine

open Sys2Proof.Spec

/-! ### The invariant -/

/-- A command keeps coherence and leaves the interface idle, whatever payload it found there. -/
theorem exec_inv {i : Instr} {s t : State} (hc : s.Coherent) (h : exec i s = .next t) : t.Inv := by
  obtain ⟨-, hidle, -⟩ := exec_response h
  exact ⟨exec_coherent hc h, hidle⟩

theorem reset_inv : State.reset.Inv := ⟨reset_coherent, rfl⟩

theorem applyReset_inv (rest : List HostInput) (s : State) : (applyReset rest s).Inv :=
  ⟨reset_coherent.of_fields rfl rfl rfl rfl rfl, rfl⟩

/-- Settles O10, by the four things a step can be: idle, reset, an illegal header, a command. -/
theorem stepKeepsInvariant : Obligations.StepKeepsInvariant := by
  intro s t hs hstep
  have taken (p : List Byte) (rest : List HostInput) : (takeCommand p rest s).Coherent :=
    takeCommand_coherent hs.coherent p rest
  obtain ⟨-, rfl⟩ | ⟨rest, -, rfl⟩ | ⟨hd, p, rest, -, ⟨-, rfl⟩ | ⟨i, -, hx⟩⟩ := step_cases hstep
  · exact hs
  · exact applyReset_inv rest s
  · exact ⟨answer_coherent (taken p rest) _ _ _, rfl⟩
  · exact exec_inv (taken p rest) hx

/-- Settles O9. -/
theorem resetStateHasInvariant : Obligations.ResetStateHasInvariant := reset_inv

/-- Settles O12: the addresses held are exactly those below `LEN`, in rising order. -/
theorem invariantGivesCanonicalStore : Obligations.InvariantGivesCanonicalStore := fun _ hs =>
  ⟨wf_of_exact hs.img_exact, fun _ => read_isSome_of_exact hs.img_exact⟩

/-! ### What reset leaves -/

theorem checkLoaded_of_unloaded {s : State} (k : Out) (hl : s.len = 0#13) :
    checkLoaded s k = .next (s.replied 2#4 0#32 []) := if_pos hl

theorem checkImage_of_unloaded (sec blk : Nat) {s : State} (k : Out) (hl : s.len = 0#13) :
    checkImage sec blk s k = .next (s.replied 2#4 0#32 []) := checkLoaded_of_unloaded _ hl

/-- The payload length of spec/30_encoding.md R85 is the one the framing check compares with. -/
theorem payloadLength_eq_paylen (i : Instr) : payloadLength i = i.paylen := by cases i <;> rfl

/-- With no image held, a command that needs one answers `ERR_NOT_LOADED`
(spec/60_exceptions.md R215). -/
theorem exec_of_unloaded {i : Instr} {s : State} (hw : i.WellFormed)
    (hp : s.payload.length = i.paylen) (hl : s.len = 0#13) (hn : needsImage i = true) :
    exec i s = .next (s.replied 2#4 0#32 []) := by
  cases i with
  | serialize => exact (checkFrame_of_length hp).trans (checkLoaded_of_unloaded _ hl)
  | rdrow row => exact (checkFrame_of_length hp).trans (checkLoaded_of_unloaded _ hl)
  | editnib sec blk nib val =>
    exact (checkFrame_of_length hp).trans (checkImage_of_unloaded _ _ _ hl)
  | editacb sec blk pos bit =>
    obtain ⟨j, hj, -⟩ := posOf_of_ne (pos := pos) (by simpa [Instr.WellFormed, Instr.wf] using hw)
    exact (checkPos_of_some hj).trans <|
      (checkFrame_of_length hp).trans (checkImage_of_unloaded _ _ _ hl)
  | rdblk sec blk => exact (checkFrame_of_length hp).trans (checkImage_of_unloaded _ _ _ hl)
  | rdac sec blk => exact (checkFrame_of_length hp).trans (checkImage_of_unloaded _ _ _ hl)
  | rdvbs sec blk => exact (checkFrame_of_length hp).trans (checkImage_of_unloaded _ _ _ hl)
  | rdclass sec blk => exact (checkFrame_of_length hp).trans (checkImage_of_unloaded _ _ _ hl)
  | parse | rdstat | acdec | acenc | vbchk | bcc => cases hn

/-- RDSTAT of a block with no image and no edits answers 0 (spec/44_addressing.md R201). -/
theorem exec_rdstat_of_unloaded {s : State} (hp : s.payload = []) (hl : s.len = 0#13)
    (hd : s.dirty = false) : exec .rdstat s = .next (s.replied 0#4 0#32 []) := by
  have hword : statusWord s.len s.dirty = 0#32 := by rw [hl, hd]; decide
  exact exec_of_effect ⟨hp, by rw [hword]; rfl⟩

/-- A PARSE of a legal size gives a value to every element a later command can read
(spec/10_state.md R40), whatever the state it finds. -/
theorem exec_parse_fills {len : BitVec 16} {s : State} (hp : s.payload.length = len.toNat)
    (hlen : len.toNat = 320 ∨ len.toNat = 1024 ∨ len.toNat = 4096) :
    ∃ u, exec (.parse len) s = .next u ∧
      (∀ a < len.toNat, (Memory.read u.img a).isSome = true) ∧
      u.act.length = nsec len.toNat ∧ u.vbs.length = nblocks len.toNat := by
  have hz : legalSize len.toNat = true := (legalSize_iff _).2 hlen
  obtain ⟨u, hu, hc, -, hul, -⟩ := loadImage_coherent (X := s.payload) (by rw [hp]; exact hz) s
  rw [hp] at hul
  refine ⟨answer okCode (len.setWidth 32) [] u, exec_of_effect ⟨hp, hz, u, hu, rfl⟩, ?_, ?_, ?_⟩
  · exact fun a ha => (read_isSome_of_exact hc.img_exact).2 (by rwa [hul])
  · exact hul ▸ (actTable_eq_some.1 hc.act).1
  · exact hul ▸ (vbsTable_eq_some.1 hc.vbs).1

/-- Settles O8: the state `applyReset` leaves holds nothing, and a PARSE fills it. -/
theorem resetLeavesUnloadedBlock : Obligations.ResetLeavesUnloadedBlock := by
  intro s rest hi
  refine ⟨applyReset rest s, step_reset hi, rfl, rfl, fun _ => rfl, fun _ => rfl, fun _ => rfl, rfl,
    exec_rdstat_of_unloaded rfl rfl rfl, fun i p hw hp hn => ?_, fun len p hp => ?_⟩
  · exact exec_of_unloaded hw (hp.trans (payloadLength_eq_paylen i)) rfl hn
  · exact exec_parse_fills (s := { applyReset rest s with payload := p }) hp

/-! ### Who writes `LEN` -/

/-- A successful PARSE makes `LEN` its operand, one of the three legal lengths
(spec/43_cardimage.md R160). -/
theorem effect_parse_len {len : BitVec 16} {s t : State} (he : Effect s (.parse len) t) :
    t.len.toNat = len.toNat ∧ (len.toNat = 320 ∨ len.toNat = 1024 ∨ len.toNat = 4096) := by
  obtain ⟨hp, hz, u, hu, rfl⟩ := he
  obtain ⟨_, _, -, rfl⟩ := loadImage_eq_some.1 hu
  exact ⟨by simp only [answer_len, hp]; exact len_of_legalSize hz, (legalSize_iff _).1 hz⟩

/-- A command that changes `LEN` is a PARSE, answered with status `OK`. -/
theorem exec_len_ne {i : Instr} {s t : State} (h : exec i s = .next t) (hne : t.len ≠ s.len) :
    ∃ len r, i = .parse len ∧ t.outbox = s.outbox ++ [r] ∧ r.status = 0 ∧
      Effect s (.parse len) t := by
  obtain ⟨len, rfl⟩ : ∃ len, i = .parse len := by
    by_contra hn
    exact hne (exec_len h fun len e => hn ⟨len, e⟩)
  obtain ⟨-, -, r, hr, ⟨h0, he⟩ | ⟨e, -, -, -, rfl⟩⟩ := exec_response h
  · exact ⟨len, r, rfl, hr, h0, he⟩
  · exact absurd rfl hne

/-- Settles O33, by the four things a step can be. -/
theorem lengthChangesOnlyByParseOrReset : Obligations.LengthChangesOnlyByParseOrReset := by
  intro s t hstep hne
  obtain ⟨-, rfl⟩ | ⟨rest, hi, rfl⟩ | ⟨hd, p, rest, hi, ⟨-, rfl⟩ | ⟨i, hdec, hx⟩⟩ :=
    step_cases hstep
  · exact absurd rfl hne
  · exact .inl ⟨rest, hi, rfl⟩
  · exact absurd rfl hne
  · obtain ⟨len, r, rfl, hr, h0, he⟩ := exec_len_ne hx hne
    obtain ⟨hl, hlegal⟩ := effect_parse_len he
    exact .inr ⟨hd, p, rest, len, r, hi, hdec, hr, h0, hl, hlegal⟩

/-! ### Headers that decode are legal -/

/-- Row `n` of the table, without the condition on `pos`, read back from the decoder's test. -/
theorem row_of_selected (n : Nat) {h mask pattern : Word} {f : Word → Instr} {i : Instr}
    (hn : headerTable[n]? = some ⟨pattern, mask, false, f⟩)
    (hs : selected h mask pattern (f h) = .ok i) :
    ∃ r ∈ headerTable, r.Selects h ∧ r.operands h = i := by
  obtain ⟨hm, hf⟩ := selected_eq_ok.1 hs
  exact ⟨_, List.mem_of_getElem? hn, ⟨hm, nofun⟩, hf⟩

/-- Row `n` of the table, with the condition on `pos`, read back from the decoder's test. -/
theorem row_of_selectedPos (n : Nat) {h mask pattern : Word} {f : Word → Instr} {i : Instr}
    (hn : headerTable[n]? = some ⟨pattern, mask, true, f⟩)
    (hs : selectedPos h mask pattern (f h) = .ok i) :
    ∃ r ∈ headerTable, r.Selects h ∧ r.operands h = i := by
  obtain ⟨hm, hp, hf⟩ := selectedPos_eq_ok.1 hs
  exact ⟨_, List.mem_of_getElem? hn, ⟨hm, fun _ => hp⟩, hf⟩

/-- A header that decodes selects a row of the table of spec/30_encoding.md R84, and its operands
are the row's. -/
theorem exists_row_of_decode {h : Word} {i : Instr} (hd : decode h = .ok i) :
    ∃ r ∈ headerTable, r.Selects h ∧ r.operands h = i := by
  unfold decode at hd
  split at hd
  · cases hd
  · exact row_of_selected 0 rfl hd
  · exact row_of_selected 1 rfl hd
  · exact row_of_selected 2 rfl hd
  · exact row_of_selectedPos 3 rfl hd
  · exact row_of_selected 4 rfl hd
  · exact row_of_selected 5 rfl hd
  · exact row_of_selected 6 rfl hd
  · exact row_of_selected 7 rfl hd
  · exact row_of_selected 8 rfl hd
  · exact row_of_selected 9 rfl hd
  · exact row_of_selected 10 rfl hd
  · exact row_of_selectedPos 11 rfl hd
  · exact row_of_selected 12 rfl hd
  · exact row_of_selected 13 rfl hd
  · cases hd

theorem legalHeader_of_decode {h : Word} {i : Instr} (hd : decode h = .ok i) : LegalHeader h := by
  obtain ⟨r, hr, hs, -⟩ := exists_row_of_decode hd
  exact ⟨r, hr, hs⟩

/-! ### Who writes `DIRTY` -/

/-- The effect of a command without a side effect is its response (spec/20_memory.md R61). -/
theorem effect_of_readOnly {i : Instr} {s t : State} (hro : readOnly i = true)
    (he : Effect s i t) : ∃ r q, t = answer okCode r q s := by
  cases i with
  | parse | serialize | editnib | editacb => cases hro
  | rdblk => obtain ⟨-, -, q, -, rfl⟩ := he; exact ⟨_, q, rfl⟩
  | rdac => obtain ⟨-, -, _, -, rfl⟩ := he; exact ⟨_, _, rfl⟩
  | rdvbs => obtain ⟨-, -, _, -, rfl⟩ := he; exact ⟨_, _, rfl⟩
  | rdclass => obtain ⟨-, -, rfl⟩ := he; exact ⟨_, _, rfl⟩
  | rdrow => obtain ⟨-, -, -, rfl⟩ := he; exact ⟨_, _, rfl⟩
  | rdstat => obtain ⟨-, rfl⟩ := he; exact ⟨_, _, rfl⟩
  | acdec => obtain ⟨-, rfl⟩ := he; exact ⟨_, _, rfl⟩
  | acenc => obtain ⟨-, _, -, rfl⟩ := he; exact ⟨_, _, rfl⟩
  | vbchk => obtain ⟨-, rfl⟩ := he; exact ⟨_, _, rfl⟩
  | bcc => obtain ⟨-, rfl⟩ := he; exact ⟨_, _, rfl⟩

theorem dirtyAfter_of_readOnly {i : Instr} (hro : readOnly i = true) (d : Bool) :
    dirtyAfter i d = d := by
  cases i with
  | parse | serialize | editnib | editacb => cases hro
  | _ => rfl

/-- `DIRTY` after a command's own effect (spec/10_state.md R22). -/
theorem effect_dirty {i : Instr} {s t : State} (he : Effect s i t) :
    t.dirty = dirtyAfter i s.dirty := by
  by_cases hro : readOnly i = true
  · obtain ⟨r, q, rfl⟩ := effect_of_readOnly hro he
    rw [dirtyAfter_of_readOnly hro, answer_dirty]
  · cases i with
    | parse len =>
      obtain ⟨-, -, u, hu, rfl⟩ := he
      obtain ⟨_, _, -, rfl⟩ := loadImage_eq_some.1 hu; rfl
    | serialize => obtain ⟨-, -, _, -, rfl⟩ := he; rfl
    | editnib =>
      obtain ⟨-, -, -, _, u, -, hu, rfl⟩ := he
      obtain ⟨_, _, -, rfl⟩ := commitEdit_eq_some.1 hu; rfl
    | editacb =>
      obtain ⟨-, -, _, _, u, _, -, -, hu, -, rfl⟩ := he
      obtain ⟨_, _, -, rfl⟩ := commitEdit_eq_some.1 hu; rfl
    | _ => exact absurd rfl hro

/-- `DIRTY` after a command, by the status it answered with. -/
theorem exec_dirty {i : Instr} {s t : State} {r : Response} (h : exec i s = .next t)
    (hr : t.outbox = s.outbox ++ [r]) :
    t.dirty = if r.status = 0 then dirtyAfter i s.dirty else s.dirty := by
  obtain ⟨-, -, r', hr', hcase⟩ := exec_response h
  obtain rfl := response_unique hr hr'
  obtain ⟨h0, he⟩ | ⟨e, -, -, hst, rfl⟩ := hcase
  · rw [if_pos h0, effect_dirty he]
  · rw [if_neg (hst ▸ code_ne_zero e), answer_dirty]

/-! ### No command but RDSTAT depends on `DIRTY` -/

/-- Every next state of the first outcome is one of the second, but for its `DIRTY`. -/
def SameButDirty (o o' : Out) : Prop :=
  ∀ t, o = .next t → ∃ t', o' = .next t' ∧ { t' with dirty := t.dirty } = t

namespace SameButDirty

variable {s : State} {d : Bool} {o o' : Out}

theorem refl (o : Out) : SameButDirty o o := fun t h => ⟨t, h, rfl⟩

theorem respond {r : Word} {q : List Byte} :
    SameButDirty (respond r q s) (respond r q { s with dirty := d }) := by
  intro t h
  obtain rfl := respond_next h
  exact ⟨_, rfl, rfl⟩

theorem raise {e : ErrorStatus} : SameButDirty (raise e s) (raise e { s with dirty := d }) := by
  intro t h
  obtain rfl := raise_next h
  exact ⟨_, rfl, rfl⟩

/-- The shape of every check: the same test on both sides, and an error response where it fails. -/
theorem ite {c : Prop} [Decidable c] {e e' : Out} (ho : SameButDirty o o')
    (he : SameButDirty e e') : SameButDirty (if c then o else e) (if c then o' else e') := by
  by_cases hc : c
  · rwa [if_pos hc, if_pos hc]
  · rwa [if_neg hc, if_neg hc]

theorem checkFrame {i : Instr} (ho : SameButDirty o o') :
    SameButDirty (checkFrame i s o) (checkFrame i { s with dirty := d } o') :=
  ho.ite raise

theorem checkLoaded (ho : SameButDirty o o') :
    SameButDirty (checkLoaded s o) (checkLoaded { s with dirty := d } o') :=
  raise.ite ho

theorem checkImage {sec blk : Nat} (ho : SameButDirty o o') :
    SameButDirty (checkImage sec blk s o) (checkImage sec blk { s with dirty := d } o') :=
  checkLoaded <| raise.ite <| raise.ite ho

theorem checkPos {pos : BitVec 2} {k k' : Fin 3 → Out} (hk : ∀ j, SameButDirty (k j) (k' j)) :
    SameButDirty (checkPos pos s k) (checkPos pos { s with dirty := d } k') := by
  unfold Machine.checkPos
  cases posOf pos with
  | some j => exact hk j
  | none => exact raise

theorem needValue {α : Type} {v : Option α} {k k' : α → Out} (hk : ∀ x, SameButDirty (k x) (k' x)) :
    SameButDirty (needValue v k) (needValue v k') := by
  cases v with
  | some x => exact hk x
  | none => exact refl _

end SameButDirty

/-- Every command but RDSTAT does the same under another `DIRTY`: its checks and reads do not look
at the flag, and the four that write it write it anew (there both sides are one outcome, `refl`). -/
theorem exec_sameButDirty {i : Instr} (hi : i ≠ .rdstat) (s : State) (d : Bool) :
    SameButDirty (exec i s) (exec i { s with dirty := d }) := by
  cases i with
  | parse => exact .checkFrame <| .ite (.refl _) .raise
  | serialize => exact .checkFrame <| .checkLoaded <| .needValue fun _ => .refl _
  | editnib => exact .checkFrame <| .checkImage <| .ite .raise (.refl _)
  | editacb => exact .checkPos fun _ => .checkFrame <| .checkImage (.refl _)
  | rdblk => exact .checkFrame <| .checkImage <| .needValue fun _ => .respond
  | rdac => exact .checkFrame <| .checkImage <| .needValue fun _ => .respond
  | rdvbs => exact .checkFrame <| .checkImage <| .needValue fun _ => .respond
  | rdclass => exact .checkFrame <| .checkImage .respond
  | rdrow => exact .checkFrame <| .checkLoaded <| .ite .raise .respond
  | rdstat => exact absurd rfl hi
  | acdec => exact .checkFrame .respond
  | acenc => exact .checkPos fun _ => .checkFrame .respond
  | vbchk => exact .checkFrame .respond
  | bcc => exact .checkFrame .respond

/-- `DIRTY` after a step that takes a command. -/
theorem step_command_dirty {s t : State} {h : Word} {p : List Byte} {rest : List HostInput}
    (hi : s.inbox = .command h p :: rest) (hstep : step s = .next t) :
    (¬ LegalHeader h → t.dirty = s.dirty) ∧
      ∀ i r, decode h = .ok i → t.outbox = s.outbox ++ [r] →
        t.dirty = if r.status = 0 then dirtyAfter i s.dirty else s.dirty := by
  rw [step_command hi] at hstep
  cases hdec : decode h with
  | error e =>
    rw [hdec] at hstep
    obtain rfl := raise_next hstep
    exact ⟨fun _ => rfl, nofun⟩
  | ok i =>
    rw [hdec] at hstep
    refine ⟨fun hill => absurd (legalHeader_of_decode hdec) hill, ?_⟩
    rintro _ r ⟨rfl⟩ hr
    exact exec_dirty (s := takeCommand p rest s) hstep hr

/-- Settles O32: the flag after each kind of step, and `exec_sameButDirty`. -/
theorem dirtyFlagFollowsRule : Obligations.DirtyFlagFollowsRule := by
  refine ⟨fun s t hstep => ⟨fun hi => ?_, fun rest hi => ?_, fun h p rest hi => ?_⟩, ?_⟩
  · rw [step_idle hi] at hstep; cases hstep; rfl
  · rw [step_reset hi] at hstep; cases hstep; rfl
  · exact step_command_dirty hi hstep
  · exact fun i s t d hi => exec_sameButDirty hi s d t

/-! ### The geometry -/

theorem nblk_low {s : Nat} (h : s < 32) : nblk s = 4 := if_pos h

theorem nblk_high {s : Nat} (h : 32 ≤ s) : nblk s = 16 := if_neg (by omega)

theorem first_low {s : Nat} (h : s < 32) : first s = 4 * s := if_pos h

theorem first_high {s : Nat} (h : 32 ≤ s) : first s = 128 + 16 * (s - 32) := if_neg (by omega)

/-- Settles O54: each formula of spec/10_state.md R26, below and from the boundary on. -/
theorem geometryFollowsFormulas : Obligations.GeometryFollowsFormulas := by
  refine ⟨rfl, rfl, rfl, fun s h => ?_, fun s h => ?_, fun _ _ => ⟨rfl, rfl⟩, fun _ => rfl,
    fun n h => if_pos h, fun n h => if_neg (by omega)⟩
  · exact ⟨nblk_low h, first_low h, by rw [tb, nblk_low h]⟩
  · exact ⟨nblk_high h, first_high h, by rw [tb, nblk_high h]⟩

/-- Settles O55: a sector of 4 blocks is one below 32, a sector of 16 blocks one from 32 on. -/
theorem slotOfBlockFollowsRule : Obligations.SlotOfBlockFollowsRule := by
  intro s b hb
  obtain ⟨hn, hs⟩ | ⟨hn, hs⟩ := nblk_four_or s
  · exact ⟨fun _ => by rw [slotOf_val hb, if_pos hs], fun h => by omega, fun h => h ▸ slotOf_tb s⟩
  · exact ⟨fun h => by omega, fun _ => by rw [slotOf_val hb, if_neg (by omega)],
      fun h => h ▸ slotOf_tb s⟩

end Sys2Proof.Machine
end

section
/-! The memory family (spec/20_memory.md): the blocks tile the image, which bytes a command may
change, and what a repeated command does. -/

namespace Sys2Proof.Machine

open Sys2Proof.Spec

/-! ### The blocks tile the image -/

/-- Every address below `LEN` is a byte of the block its row number names. -/
theorem exists_block_of_lt {len a : Nat} (hl : LegalLen len) (ha : a < len) :
    ∃ s b x, s < nsec len ∧ b < nblk s ∧ x < 16 ∧ a = off s b + x := by
  have hrow : a / 16 < nblocks len := by
    unfold nblocks; obtain rfl | rfl | rfl | rfl := hl <;> omega
  obtain ⟨hs, hb, hflat⟩ := addr_legal hl hrow
  exact ⟨_, _, a % 16, hs, hb, Nat.mod_lt _ (by decide), by rw [off, hflat, Nat.div_add_mod]⟩

/-- Settles O57: a byte of a block is below `LEN`, the rows cover it, and blocks are disjoint. -/
theorem blocksTileTheImage : Obligations.BlocksTileTheImage := by
  intro len hlen
  refine ⟨fun s b x hs hb hx => ?_, fun a ha => exists_block_of_lt (.inr hlen) ha, ?_⟩
  · have := off_lt hs hb; omega
  · exact fun s b x s' b' x' hs hb hx hs' hb' hx' h => off_disjoint hs hb hs' hb' hx hx' h

/-! ### Commands without a side effect -/

/-- Settles O35: an error leaves only its response, and so does the effect of such a command. -/
theorem readsAndStatelessCommandsChangeNothing :
    Obligations.ReadsAndStatelessCommandsChangeNothing := by
  intro i s t hro h
  obtain ⟨e, -, -, rfl⟩ | he := exec_cases h
  · exact ⟨⟨e.code, 0#32, []⟩, rfl⟩
  · obtain ⟨r, q, rfl⟩ := effect_of_readOnly hro he
    exact ⟨⟨okCode, r, q⟩, rfl⟩

/-! ### The bytes a command may change -/

/-- Encoding a pair touches the bytes that hold its two positions and no other. -/
theorem acenc_getElem?_of_ne {m : AcMap} {A : List Byte} {k : Fin 4} {j : Fin 3} {v : Bool}
    {i : Nat} (hd : i ≠ (m k j).direct.val / 8) (hn : i ≠ (m k j).inverted.val / 8) :
    (acenc m A k j v)[i]? = A[i]? := by
  rw [acenc, setbit, List.getElem?_set_ne hn.symm, setbit, List.getElem?_set_ne hd.symm]

/-- An access-bit edit changes at most the two bytes that hold the positions of its pair. -/
theorem accessBitEdit_read_ne {m : AcMap} {img img' : Memory} {sec blk : Nat} {j : Fin 3}
    {bit : Bool} (h : accessBitEdit m img sec blk j bit = some img') {a : Nat}
    (hne : Memory.read img' a ≠ Memory.read img a) :
    a = accessOff sec + (m (slotOf sec blk) j).direct.val / 8 ∨
      a = accessOff sec + (m (slotOf sec blk) j).inverted.val / 8 := by
  obtain ⟨A, hA, -, hB, hout⟩ := accessBitEdit_reads h
  by_contra hcon
  obtain ⟨hd, hn⟩ := not_or.1 hcon
  by_cases hin : a < accessOff sec ∨ accessOff sec + 4 ≤ a
  · exact hne (hout a hin)
  · obtain ⟨i, rfl⟩ := Nat.exists_eq_add_of_le (show accessOff sec ≤ a by omega)
    have hi : i < 4 := by omega
    rw [memRead_getElem hB hi, memRead_getElem hA hi,
      acenc_getElem?_of_ne (by omega) (by omega)] at hne
    exact hne rfl

/-- A nibble edit changes at most the byte of the nibble, and for a nibble of the UID the BCC byte
(spec/43_cardimage.md R165). -/
theorem nibbleEdit_read_ne {img img' : Memory} {sec blk nib : Nat} {val : BitVec 4}
    (h : nibbleEdit img sec blk nib val = some img') {a : Nat}
    (hne : Memory.read img' a ≠ Memory.read img a) :
    a = nibOff sec blk nib ∨ sec = 0 ∧ blk = 0 ∧ nib ≤ 7 ∧ a = 4 := by
  obtain ⟨_, -, -, hout, -⟩ := nibbleEdit_reads h
  by_contra hcon
  obtain ⟨hnib, hbcc⟩ := not_or.1 hcon
  refine hne (hout a hnib fun hu ha => hbcc ?_)
  obtain ⟨hs, hb, hn⟩ := isUidNibble_iff.1 hu
  exact ⟨hs, hb, hn, ha⟩

/-- A byte that a command's own effect changes is one spec/20_memory.md R62 names. -/
theorem mayWrite_of_effect {i : Instr} {s t : State} (he : Effect s i t) {a : Nat}
    (hne : Memory.read t.img a ≠ Memory.read s.img a) : MayWrite i a := by
  by_cases hro : readOnly i = true
  · obtain ⟨r, q, rfl⟩ := effect_of_readOnly hro he
    exact absurd rfl hne
  · cases i with
    | parse => trivial
    | serialize => obtain ⟨-, -, _, -, rfl⟩ := he; exact absurd rfl hne
    | editnib sec blk nib val =>
      obtain ⟨-, -, -, img, u, hi, hu, rfl⟩ := he
      obtain ⟨_, _, -, rfl⟩ := commitEdit_eq_some.1 hu
      obtain ha | ⟨hs, hb, hn, ha⟩ := nibbleEdit_read_ne hi hne
      · exact .inl ha
      · exact .inr ⟨BitVec.eq_of_toNat_eq hs, BitVec.eq_of_toNat_eq hb, hn, ha⟩
    | editacb sec blk pos bit =>
      obtain ⟨-, -, j, img, u, _, hj, hi, hu, -, rfl⟩ := he
      obtain ⟨_, _, -, rfl⟩ := commitEdit_eq_some.1 hu
      exact ⟨j, (posOf_eq_some hj).2, accessBitEdit_read_ne hi hne⟩
    | _ => exact absurd rfl hro

/-- The two positions of a pair of the default table lie in different bytes (log entry 1). -/
theorem chip_pair_bytes_ne : ∀ (k : Fin 4) (j : Fin 3),
    (chip.acmap k j).direct.val / 8 ≠ (chip.acmap k j).inverted.val / 8 := by decide

/-- With the default table an EDITACB writes two of the trailer bytes 6, 7, 8 (log entry 1). -/
theorem mayWrite_editacb_bytes (sec : BitVec 6) (blk : BitVec 4) (pos : BitVec 2) (bit : Bool) :
    ∃ x y, x < 3 ∧ y < 3 ∧ x ≠ y ∧ ∀ a, MayWrite (.editacb sec blk pos bit) a →
      a = off sec.toNat (tb sec.toNat) + 6 + x ∨ a = off sec.toNat (tb sec.toNat) + 6 + y := by
  by_cases hpos : pos = 3#2
  · refine ⟨0, 1, by decide, by decide, by decide, ?_⟩
    rintro a ⟨j, hj, -⟩
    have := j.isLt
    rw [hj, hpos] at this
    exact absurd this (by decide)
  · obtain ⟨j, -, hj⟩ := posOf_of_ne hpos
    obtain ⟨hx, hy⟩ := chip_pos_lt (slotOf sec.toNat blk.toNat) j
    refine ⟨_, _, Nat.lt_succ_of_le hx, Nat.lt_succ_of_le hy, chip_pair_bytes_ne _ j, ?_⟩
    rintro a ⟨j', hj', ha⟩
    obtain rfl : j' = j := Fin.ext (hj'.trans hj.symm)
    exact ha

/-- Settles O31: an error changes no byte, an effect only those it may. -/
theorem onlyNamedBytesChange : Obligations.OnlyNamedBytesChange := by
  refine ⟨fun i s t h a hne => ?_, mayWrite_editacb_bytes⟩
  obtain ⟨e, -, -, rfl⟩ | he := exec_cases h
  · exact absurd rfl hne
  · exact mayWrite_of_effect he hne

/-! ### No command reads the responses already received -/

/-- Every next state of the first outcome, one response after `o`, is one of the second with the
same response after `o'`, and the same in everything else. -/
def SameReply (o o' : List Response) (x x' : Out) : Prop :=
  ∀ t r, x = .next t → t.outbox = o ++ [r] → x' = .next { t with outbox := o' ++ [r] }

theorem rebuild_outbox (c : Config) (s : State) (o' : List Response) :
    rebuild c { s with outbox := o' } = (rebuild c s).map ({ · with outbox := o' }) := by
  rw [rebuild, rebuild, Option.map_map]; rfl

theorem rebuild_keeps_outbox {c : Config} {s u : State} (h : rebuild c s = some u) :
    u.outbox = s.outbox := by
  obtain ⟨_, _, -, rfl⟩ := rebuild_eq_some.1 h
  rfl

namespace SameReply

variable {s : State} {o' : List Response} {x x' : Out}

theorem answered {st : BitVec 4} {r : Word} {q : List Byte} : SameReply s.outbox o'
    (.next (answer st r q s)) (.next (answer st r q { s with outbox := o' })) := by
  rintro _ r' ⟨rfl⟩ hr
  obtain rfl := response_unique (answer_outbox st r q s) hr
  rfl

theorem respond {r : Word} {q : List Byte} :
    SameReply s.outbox o' (respond r q s) (respond r q { s with outbox := o' }) := answered

theorem raise {e : ErrorStatus} :
    SameReply s.outbox o' (raise e s) (raise e { s with outbox := o' }) := answered

/-- The shape of every check: the same test on both sides. -/
theorem ite {o : List Response} {c : Prop} [Decidable c] {e e' : Out} (hx : SameReply o o' x x')
    (he : SameReply o o' e e') : SameReply o o' (if c then x else e) (if c then x' else e') := by
  by_cases hc : c
  · rwa [if_pos hc, if_pos hc]
  · rwa [if_neg hc, if_neg hc]

theorem checkFrame {i : Instr} (hx : SameReply s.outbox o' x x') :
    SameReply s.outbox o' (checkFrame i s x) (checkFrame i { s with outbox := o' } x') :=
  hx.ite raise

theorem checkLoaded (hx : SameReply s.outbox o' x x') :
    SameReply s.outbox o' (checkLoaded s x) (checkLoaded { s with outbox := o' } x') :=
  raise.ite hx

theorem checkImage {sec blk : Nat} (hx : SameReply s.outbox o' x x') : SameReply s.outbox o'
    (checkImage sec blk s x) (checkImage sec blk { s with outbox := o' } x') :=
  checkLoaded <| raise.ite <| raise.ite hx

theorem checkPos {pos : BitVec 2} {k k' : Fin 3 → Out}
    (hk : ∀ j, SameReply s.outbox o' (k j) (k' j)) : SameReply s.outbox o'
      (checkPos pos s k) (checkPos pos { s with outbox := o' } k') := by
  unfold Machine.checkPos
  cases posOf pos with
  | some j => exact hk j
  | none => exact raise

theorem needValue {o : List Response} {α : Type} {v : Option α} {k k' : α → Out}
    (hk : ∀ y, SameReply o o' (k y) (k' y)) : SameReply o o' (needValue v k) (needValue v k') := by
  cases v with
  | some y => exact hk y
  | none => exact nofun

/-- The rebuild that ends PARSE, EDITNIB and EDITACB hands the responses on as they were. -/
theorem needRebuild {c : Config} {k : State → Out}
    (hk : ∀ u, SameReply u.outbox o' (k u) (k { u with outbox := o' })) : SameReply s.outbox o'
      (Machine.needValue (rebuild c s) k)
      (Machine.needValue (rebuild c { s with outbox := o' }) k) := by
  rw [rebuild_outbox c s o']
  cases hu : rebuild c s with
  | some u => exact rebuild_keeps_outbox hu ▸ hk u
  | none => exact nofun

end SameReply

/-- No command reads the responses already received (spec/30_encoding.md R80). -/
theorem exec_sameReply (i : Instr) (s : State) (o' : List Response) :
    SameReply s.outbox o' (exec i s) (exec i { s with outbox := o' }) := by
  cases i with
  | parse => exact .checkFrame <| .ite (.needRebuild fun _ => .respond) .raise
  | serialize => exact .checkFrame <| .checkLoaded <| .needValue fun _ => .respond
  | editnib =>
    exact .checkFrame <| .checkImage <| .ite .raise <| .needValue fun _ =>
      .needRebuild fun _ => .respond
  | editacb =>
    exact .checkPos fun _ => .checkFrame <| .checkImage <| .needValue fun _ =>
      .needRebuild fun _ => .needValue fun _ => .respond
  | rdblk => exact .checkFrame <| .checkImage <| .needValue fun _ => .respond
  | rdac => exact .checkFrame <| .checkImage <| .needValue fun _ => .respond
  | rdvbs => exact .checkFrame <| .checkImage <| .needValue fun _ => .respond
  | rdclass => exact .checkFrame <| .checkImage .respond
  | rdrow => exact .checkFrame <| .checkLoaded <| .ite .raise .respond
  | rdstat => exact .checkFrame .respond
  | acdec => exact .checkFrame .respond
  | acenc => exact .checkPos fun _ => .checkFrame .respond
  | vbchk => exact .checkFrame .respond
  | bcc => exact .checkFrame .respond

/-! ### An edit made again -/

/-- Writing the value an element holds changes nothing. -/
theorem write_eq_self {m : Memory} {len a : Nat} {b : Byte} (hm : m.map Prod.fst = List.range len)
    (h : Memory.read m a = some b) : Memory.write m a b = m := by
  have ha : a < len := (read_isSome_of_exact hm).1 (by rw [h]; rfl)
  refine exact_ext (write_exact b hm ha) hm fun c => ?_
  by_cases hc : c = a
  · rw [hc, read_write_same, h]
  · exact read_write_other m b hc

/-- Writing the bytes a run of elements holds changes nothing. -/
theorem memWrite_eq_self {m : Memory} {len a n : Nat} {X : List Byte}
    (hm : m.map Prod.fst = List.range len) (h : memRead m a n = some X) : memWrite m a X = m := by
  induction X generalizing a n with
  | nil => rfl
  | cons b X ih =>
    obtain rfl : n = X.length + 1 := (memRead_length h).symm
    have hb : Memory.read m a = some b := memRead_getElem h (Nat.succ_pos _)
    have hX : memRead m (a + 1) X.length = some X := memRead_eq_some.2 ⟨rfl, fun i hi => by
      rw [Nat.add_assoc, Nat.add_comm 1 i, memRead_getElem h (Nat.succ_lt_succ hi),
        List.getElem?_cons_succ]⟩
    rw [memWrite, write_eq_self hm hb, ih hX]

/-- A nibble edit made again leaves the store: the nibble is there, and the BCC byte is that of the
UID after the first edit (spec/20_memory.md R61). -/
theorem nibbleEdit_again {img img' : Memory} {len sec blk nib : Nat} {val : BitVec 4}
    (he : img'.map Prod.fst = List.range len) (h : nibbleEdit img sec blk nib val = some img') :
    nibbleEdit img' sec blk nib val = some img' := by
  obtain ⟨old, -, hnew, -, hbcc⟩ := nibbleEdit_reads h
  simp only [nibbleEdit, hnew, setNibble_idem, write_eq_self he hnew]
  split
  · next hu =>
    obtain ⟨uid, huid, h4⟩ := hbcc hu
    rw [updateBcc, huid, Option.map_some, write_eq_self he h4]
  · rfl

/-- An access-bit edit made again leaves the store (spec/40_codec.md R117 f). -/
theorem accessBitEdit_again {m : AcMap} {img img' : Memory} {len sec blk : Nat} {j : Fin 3}
    {bit : Bool} (he : img'.map Prod.fst = List.range len)
    (h : accessBitEdit m img sec blk j bit = some img') :
    accessBitEdit m img' sec blk j bit = some img' := by
  obtain ⟨A, -, hA, hB, -⟩ := accessBitEdit_reads h
  rw [accessBitEdit, hB, Option.map_some, acenc_idem m hA, memWrite_eq_self he hB]

/-! ### A command sent again -/

/-- The state in which a command runs that is sent again, with payload `p`, after it left `t`. -/
def sentAgain (p : List Byte) (t : State) : State := { t with payload := p }

/-- An edited store that is already the image stays the image, whatever was answered since. -/
theorem commitEdit_again {img : Memory} {s u : State} (h : commitEdit img s = some u)
    (st : BitVec 4) (r : Word) (q p : List Byte) :
    commitEdit img (sentAgain p (answer st r q u)) = some (sentAgain p (answer st r q u)) := by
  obtain ⟨act, vbs, ht, rfl⟩ := commitEdit_eq_some.1 h
  exact commitEdit_eq_some.2 ⟨act, vbs, ht, rfl⟩

/-- A dump that is already the image stays the image, whatever was answered since. -/
theorem loadImage_again {X : List Byte} {s u : State} (h : loadImage X s = some u) (st : BitVec 4)
    (r : Word) (q p : List Byte) :
    loadImage X (sentAgain p (answer st r q u)) = some (sentAgain p (answer st r q u)) := by
  obtain ⟨act, vbs, ht, rfl⟩ := loadImage_eq_some.1 h
  exact loadImage_eq_some.2 ⟨act, vbs, ht, rfl⟩

theorem LegalAt.of_len_eq {s t : State} {sec : BitVec 6} {blk : BitVec 4} (h : LegalAt s sec blk)
    (hlen : t.len = s.len) : LegalAt t sec blk :=
  ⟨by rw [hlen]; exact h.loaded, by rw [hlen]; exact h.sec_lt, h.blk_lt⟩

/-- An effect that writes state can be had again, and then writes nothing new: it adds the same
response to the state it left (spec/20_memory.md R61). -/
theorem effect_again {i : Instr} {s t : State} (hc : s.Coherent) (hw : readOnly i ≠ true)
    (he : Effect s i t) : ∃ r : Response, t.outbox = s.outbox ++ [r] ∧
      Effect (sentAgain s.payload t) i (t.replied r.status r.result r.payload) := by
  have hx := (effect_coherent hc he).img_exact
  have hlen := effect_len he
  cases i with
  | parse len =>
    obtain ⟨hp, hz, u, hu, rfl⟩ := he
    refine ⟨⟨okCode, len.setWidth 32, []⟩, ?_, hp, hz, _, loadImage_again hu _ _ _ _, rfl⟩
    rw [answer_outbox, rebuild_keeps_outbox hu]
  | serialize =>
    obtain ⟨hp, hl, q, hq, rfl⟩ := he
    exact ⟨_, rfl, hp, hl, q, hq, rfl⟩
  | editnib sec blk nib val =>
    obtain ⟨hp, hl, hb, img, u, hi, hu, rfl⟩ := he
    obtain ⟨_, _, -, hu'⟩ := commitEdit_eq_some.1 hu
    refine ⟨⟨okCode, 0#32, []⟩, ?_, hp, hl.of_len_eq (hlen nofun), hb, img, _, ?_,
      commitEdit_again hu _ _ _ _, rfl⟩
    · rw [answer_outbox, rebuild_keeps_outbox hu]
    · subst hu'; exact nibbleEdit_again hx hi
  | editacb sec blk pos bit =>
    obtain ⟨hp, hl, j, img, u, ac, hj, hi, hu, ha, rfl⟩ := he
    obtain ⟨_, _, -, hu'⟩ := commitEdit_eq_some.1 hu
    refine ⟨⟨okCode, (ac4 ac).setWidth 32, []⟩, ?_, hp, hl.of_len_eq (hlen nofun), j, img, _, ac,
      hj, ?_, commitEdit_again hu _ _ _ _, ha, rfl⟩
    · rw [answer_outbox, rebuild_keeps_outbox hu]
    · subst hu'; exact accessBitEdit_again hx hi
  | _ => exact absurd rfl hw

/-- A command that only answered finds the state it was first sent to, but for the response. -/
theorem exec_again_of_replied {i : Instr} {s : State} {r : Response}
    (h : exec i s = .next (s.replied r.status r.result r.payload)) :
    exec i (sentAgain s.payload (s.replied r.status r.result r.payload)) =
      .next ((s.replied r.status r.result r.payload).replied r.status r.result r.payload) :=
  exec_sameReply i s (s.outbox ++ [r]) _ r h rfl

/-- Settles O36: an error and a read change nothing that a command reads, and the effect of one of
the four other commands can be had again. -/
theorem repeatedCommandChangesNothingMore : Obligations.RepeatedCommandChangesNothingMore := by
  intro i s t r hc h hr
  by_cases hro : readOnly i = true
  · obtain ⟨r', rfl⟩ := readsAndStatelessCommandsChangeNothing i s t hro h
    obtain rfl := response_unique hr rfl
    exact exec_again_of_replied h
  · obtain ⟨e, -, -, rfl⟩ | he := exec_cases h
    · obtain rfl := response_unique hr rfl
      exact exec_again_of_replied (r := ⟨e.code, 0#32, []⟩) h
    · obtain ⟨r', hr', hagain⟩ := effect_again hc hro he
      obtain rfl := response_unique hr hr'
      exact exec_of_effect hagain

end Sys2Proof.Machine
end

section
/-! The encoding family (spec/30_encoding.md): the two round trips, the match and mask table, and
that every command sent is answered. -/

namespace Sys2Proof

open Machine Spec Header

/-! ### Decoding an encoding -/

/-- Settles O4, by the lemma of each command. -/
theorem decodeOfEncodeIsIdentity : Obligations.DecodeOfEncodeIsIdentity := by
  intro i hw
  cases i with
  | parse len => exact Laws.DecodeEncode.parse len hw
  | serialize => exact Laws.DecodeEncode.serialize hw
  | editnib sec blk nib val => exact Laws.DecodeEncode.editnib sec blk nib val hw
  | editacb sec blk pos bit => exact Laws.DecodeEncode.editacb sec blk pos bit hw
  | rdblk sec blk => exact Laws.DecodeEncode.rdblk sec blk hw
  | rdac sec blk => exact Laws.DecodeEncode.rdac sec blk hw
  | rdvbs sec blk => exact Laws.DecodeEncode.rdvbs sec blk hw
  | rdclass sec blk => exact Laws.DecodeEncode.rdclass sec blk hw
  | rdrow row => exact Laws.DecodeEncode.rdrow row hw
  | rdstat => exact Laws.DecodeEncode.rdstat hw
  | acdec slot => exact Laws.DecodeEncode.acdec slot hw
  | acenc slot pos bit => exact Laws.DecodeEncode.acenc slot pos bit hw
  | vbchk => exact Laws.DecodeEncode.vbchk hw
  | bcc len => exact Laws.DecodeEncode.bcc len hw

/-! ### A legal header rebuilt from its fields -/

/-- Two headers that agree with one row are equal once they agree where its mask is 0. -/
theorem ext_of_match {g h mask pattern : Word} (hg : g &&& mask = pattern)
    (hh : h &&& mask = pattern)
    (hfree : ∀ n < 32, mask.getLsbD n = false → g.getLsbD n = h.getLsbD n) : g = h := by
  apply BitVec.eq_of_getLsbD_eq
  intro n hn
  cases hm : mask.getLsbD n with
  | true => rw [bit_of_match hg n hm, bit_of_match hh n hm]
  | false => exact hfree n hn hm

namespace Header

variable {h : Word} {o : BitVec 4}

/-- The rows without operands: the mask leaves no bit free. -/
theorem formatN_of_match (e : h &&& 0xFFFFFFFF#32 = formatN o) : formatN o = h :=
  e.symm.trans (BitVec.and_allOnes (x := h))

/-- The rows of PARSE, RDROW and BCC: the free bits are `len`. -/
theorem formatL_of_match (e : h &&& 0xFFFF0000#32 = formatL o 0#16) : formatL o (len h) = h := by
  refine ext_of_match (mask_formatL o _) e fun n hn hm => ?_
  have hlen : n < 16 := (by decide : ∀ n < 32, (0xFFFF0000#32).getLsbD n = false → n < 16) n hn hm
  simp [getLsbD_formatL, len, hlen, -BitVec.getLsbD_eq_getElem]

/-- The rows that use `sec` and `blk` only. -/
theorem formatA_block_of_match (e : h &&& 0xF003FFFF#32 = formatA o 0#6 0#4 0#5 0#4 0#2 false) :
    formatA o (sec h) (blk h) 0#5 0#4 0#2 false = h := by
  refine ext_of_match (mask_formatA_block o _ _) e fun n hn hm => ?_
  obtain ⟨hlo, hhi⟩ := (by decide :
    ∀ n < 32, (0xF003FFFF#32).getLsbD n = false → 18 ≤ n ∧ n < 28) n hn hm
  interval_cases n <;> simp [getLsbD_formatA, sec, blk, -BitVec.getLsbD_eq_getElem]

/-- The row of EDITNIB: the free bits are `sec`, `blk`, `nib` and `val`. -/
theorem formatA_nibble_of_match (e : h &&& 0xF00001FF#32 = formatA o 0#6 0#4 0#5 0#4 0#2 false) :
    formatA o (sec h) (blk h) (nib h) (val h) 0#2 false = h := by
  refine ext_of_match (mask_formatA_nibble o _ _ _ _) e fun n hn hm => ?_
  obtain ⟨hlo, hhi⟩ := (by decide :
    ∀ n < 32, (0xF00001FF#32).getLsbD n = false → 9 ≤ n ∧ n < 28) n hn hm
  interval_cases n <;> simp [getLsbD_formatA, sec, blk, nib, val, -BitVec.getLsbD_eq_getElem]

/-- The row of EDITACB: the free bits are `sec`, `blk`, and below them `pos` and `bit`. -/
theorem formatA_bit_of_match (e : h &&& 0xF003FE3F#32 = formatA o 0#6 0#4 0#5 0#4 0#2 false) :
    formatA o (sec h) (blk h) 0#5 0#4 (pos h) (bit h) = h := by
  refine ext_of_match (mask_formatA_bit o _ _ _ _) e fun n hn hm => ?_
  obtain ⟨hlo, hhi⟩ | ⟨hlo, hhi⟩ := (by decide :
    ∀ n < 32, (0xF003FE3F#32).getLsbD n = false → 6 ≤ n ∧ n < 9 ∨ 18 ≤ n ∧ n < 28) n hn hm
  · interval_cases n <;> simp [getLsbD_formatA, pos, bit, -BitVec.getLsbD_eq_getElem]
  · interval_cases n <;> simp [getLsbD_formatA, sec, blk, -BitVec.getLsbD_eq_getElem]

/-- The row of ACDEC: the free bits are `slot`. -/
theorem formatS_slot_of_match (e : h &&& 0xFFFFFFCF#32 = formatS o 0#2 false 0#2) :
    formatS o 0#2 false (slot h) = h := by
  refine ext_of_match (mask_formatS_slot o _) e fun n hn hm => ?_
  obtain ⟨hlo, hhi⟩ := (by decide :
    ∀ n < 32, (0xFFFFFFCF#32).getLsbD n = false → 4 ≤ n ∧ n < 6) n hn hm
  interval_cases n <;> simp [getLsbD_formatS, slot, -BitVec.getLsbD_eq_getElem]

/-- The row of ACENC: the free bits are `pos`, `bit` and `slot`. -/
theorem formatS_bit_of_match (e : h &&& 0xFFFFFE0F#32 = formatS o 0#2 false 0#2) :
    formatS o (pos h) (bit h) (slot h) = h := by
  refine ext_of_match (mask_formatS_bit o _ _ _) e fun n hn hm => ?_
  obtain ⟨hlo, hhi⟩ := (by decide :
    ∀ n < 32, (0xFFFFFE0F#32).getLsbD n = false → 4 ≤ n ∧ n < 9) n hn hm
  interval_cases n <;> simp [getLsbD_formatS, pos, bit, slot, -BitVec.getLsbD_eq_getElem]

end Header

/-- A header that agrees with a row's mask is the encoding of the command read from its fields. -/
theorem encode_of_decode {h : Word} {i : Instr} (hd : decode h = .ok i) : encode i = h := by
  unfold decode at hd
  split at hd
  · cases hd
  · obtain ⟨e, rfl⟩ := selected_eq_ok.1 hd; exact formatL_of_match e
  · obtain ⟨e, rfl⟩ := selected_eq_ok.1 hd; exact formatN_of_match e
  · obtain ⟨e, rfl⟩ := selected_eq_ok.1 hd; exact formatA_nibble_of_match e
  · obtain ⟨e, -, rfl⟩ := selectedPos_eq_ok.1 hd; exact formatA_bit_of_match e
  · obtain ⟨e, rfl⟩ := selected_eq_ok.1 hd; exact formatA_block_of_match e
  · obtain ⟨e, rfl⟩ := selected_eq_ok.1 hd; exact formatA_block_of_match e
  · obtain ⟨e, rfl⟩ := selected_eq_ok.1 hd; exact formatA_block_of_match e
  · obtain ⟨e, rfl⟩ := selected_eq_ok.1 hd; exact formatA_block_of_match e
  · obtain ⟨e, rfl⟩ := selected_eq_ok.1 hd; exact formatL_of_match e
  · obtain ⟨e, rfl⟩ := selected_eq_ok.1 hd; exact formatN_of_match e
  · obtain ⟨e, rfl⟩ := selected_eq_ok.1 hd; exact formatS_slot_of_match e
  · obtain ⟨e, -, rfl⟩ := selectedPos_eq_ok.1 hd; exact formatS_bit_of_match e
  · obtain ⟨e, rfl⟩ := selected_eq_ok.1 hd; exact formatN_of_match e
  · obtain ⟨e, rfl⟩ := selected_eq_ok.1 hd; exact formatL_of_match e
  · cases hd

/-- Settles O5. -/
theorem encodeOfDecodeIsIdentity : Obligations.EncodeOfDecodeIsIdentity := fun _ _ hd =>
  ⟨wellFormed_of_decode hd, encode_of_decode hd⟩

/-! ### The match and mask table -/

/-- The mask of every row keeps the opcode. -/
theorem headerTable_mask_op : ∀ r ∈ headerTable, ∀ n < 4, r.mask.getLsbD (28 + n) = true := by
  decide

/-- No two rows of the table have one opcode. -/
theorem headerTable_pattern_of_op : ∀ r ∈ headerTable, ∀ r' ∈ headerTable,
    r.pattern.extractLsb' 28 4 = r'.pattern.extractLsb' 28 4 → r.pattern = r'.pattern := by
  decide

/-- A header that selects a row has the row's opcode. -/
theorem op_of_selects {r : HeaderRow} (hr : r ∈ headerTable) {h : Word} (hs : r.Selects h) :
    op h = r.pattern.extractLsb' 28 4 :=
  op_of_match hs.1 (headerTable_mask_op r hr)

/-- A header that selects a row decodes to the row's command, its operands read from the header. -/
theorem decode_of_selects {r : HeaderRow} (hr : r ∈ headerTable) {h : Word} (hs : r.Selects h) :
    decode h = .ok (r.operands h) := by
  have hop := op_of_selects hr hs
  obtain ⟨hm, hp⟩ := hs
  unfold decode
  rw [hop]
  simp only [headerTable, List.mem_cons, List.not_mem_nil, or_false] at hr
  obtain rfl | rfl | rfl | rfl | rfl | rfl | rfl | rfl | rfl | rfl | rfl | rfl | rfl | rfl := hr
  · exact selected_of_match _ hm
  · exact selected_of_match _ hm
  · exact selected_of_match _ hm
  · exact selectedPos_of_match _ hm (hp rfl)
  · exact selected_of_match _ hm
  · exact selected_of_match _ hm
  · exact selected_of_match _ hm
  · exact selected_of_match _ hm
  · exact selected_of_match _ hm
  · exact selected_of_match _ hm
  · exact selected_of_match _ hm
  · exact selectedPos_of_match _ hm (hp rfl)
  · exact selected_of_match _ hm
  · exact selected_of_match _ hm

/-- Settles O1: the decoder takes the row the opcode picks, and no other row has that opcode. -/
theorem decoderFollowsMatchAndMask : Obligations.DecoderFollowsMatchAndMask := by
  refine ⟨fun h i => ⟨exists_row_of_decode, ?_⟩, fun h r hr r' hr' hs hs' => ?_⟩
  · rintro ⟨r, hr, hs, rfl⟩
    exact decode_of_selects hr hs
  · exact headerTable_pattern_of_op r hr r' hr'
      ((op_of_selects hr hs).symm.trans (op_of_selects hr' hs'))

/-- The word that is the encoding of a well-formed instruction decodes to it. -/
theorem decode_of_encode_eq {h : Word} {i : Instr} (hw : i.WellFormed) (he : encode i = h) :
    decode h = .ok i :=
  he ▸ decodeOfEncodeIsIdentity i hw

/-- Settles O3: each legal word is the encoding of its command. -/
theorem listedHeadersDecodeAsWritten : Obligations.ListedHeadersDecodeAsWritten :=
  ⟨decode_of_encode_eq rfl rfl, decode_of_encode_eq rfl rfl, decode_of_encode_eq rfl rfl,
   decode_of_encode_eq rfl rfl, decode_of_encode_eq rfl rfl, decode_of_encode_eq rfl rfl,
   decode_of_encode_eq rfl rfl, decode_of_encode_eq rfl rfl, decode_of_encode_eq rfl rfl,
   decode_of_encode_eq rfl rfl, decode_of_encode_eq rfl rfl, decode_of_encode_eq rfl rfl,
   decode_of_encode_eq rfl rfl, decode_of_encode_eq rfl rfl, decode_of_encode_eq rfl rfl,
   by decide, by decide, by decide⟩

/-! ### The step that takes a command -/

/-- Settles O6. -/
theorem stepRunsDecodedCommand : Obligations.StepRunsDecodedCommand := by
  intro s h p rest i hi hd
  rw [step_command hi, hd, takeCommand]

theorem code_toNat_le (e : ErrorStatus) : e.code.toNat ≤ 6 := by cases e <;> decide

/-- In a coherent state a command is answered by one response, with one of the seven statuses of
spec/30_encoding.md R88, and the host's queue is as it was. -/
theorem exec_one_response (i : Instr) {s : State} (hc : s.Coherent) :
    ∃ t r, exec i s = .next t ∧ t.inbox = s.inbox ∧ t.payload = [] ∧
      t.outbox = s.outbox ++ [r] ∧ r.status.toNat ≤ 6 := by
  obtain ⟨t, ht⟩ := exec_total i hc
  obtain ⟨hin, hidle, r, hr, ⟨h0, -⟩ | ⟨e, -, -, he, -⟩⟩ := exec_response ht
  · exact ⟨t, r, ht, hin, hidle, hr, by rw [h0]; decide⟩
  · exact ⟨t, r, ht, hin, hidle, hr, he ▸ code_toNat_le e⟩

/-- Settles O11: an illegal header is answered `ERR_ILLEGAL`, a legal one by its command. -/
theorem everyCommandGetsOneResponse : Obligations.EveryCommandGetsOneResponse := by
  intro s h p rest hs hi
  rw [step_command hi]
  cases decode h with
  | error e =>
    exact ⟨_, ⟨ErrorStatus.illegal.code, 0#32, []⟩, rfl, rfl, rfl, rfl, code_toNat_le .illegal⟩
  | ok i => exact exec_one_response i (takeCommand_coherent hs.coherent p rest)

end Sys2Proof
end

section
/-! The codec family (spec/40_codec.md): the decode of a slot and the encode of a pair for every
`ACMAP`, the table this hardware takes, the commands ACDEC and ACENC, and EDITACB sent once for each
bit of a condition. -/

namespace Sys2Proof.Machine

open Sys2Proof.Spec

/-! ### The decode of a slot -/

/-- A slot is corrupt iff one of its pairs is inconsistent (spec/40_codec.md R112). -/
theorem acdec_corrupt_iff {m : AcMap} {A : List Byte} {k : Fin 4} :
    acdec m A k = .corrupt ↔ ¬ ∀ j, getbit A (m k j).direct = !getbit A (m k j).inverted := by
  rw [← acdec_valid_iff]
  cases acdec m A k <;> simp

/-- The number the three direct bits of a slot spell, C1 weighing 4 (spec/00_scope.md R14). -/
def directWeight (m : AcMap) (A : List Byte) (k : Fin 4) : Nat :=
  4 * (getbit A (m k 0).direct).toNat + 2 * (getbit A (m k 1).direct).toNat +
    (getbit A (m k 2).direct).toNat

theorem directWeight_lt (m : AcMap) (A : List Byte) (k : Fin 4) : directWeight m A k < 8 := by
  have hbit := Bool.toNat_le
  have h0 := hbit (getbit A (m k 0).direct)
  have h1 := hbit (getbit A (m k 1).direct)
  have h2 := hbit (getbit A (m k 2).direct)
  unfold directWeight
  omega

theorem directCode_eq_ofNat (m : AcMap) (A : List Byte) (k : Fin 4) :
    directCode m A k = BitVec.ofNat 3 (directWeight m A k) := by
  have hbits : ∀ a b c : Bool, BitVec.ofBool a ++ BitVec.ofBool b ++ BitVec.ofBool c =
      BitVec.ofNat 3 (4 * a.toNat + 2 * b.toNat + c.toNat) := by decide
  exact hbits _ _ _

/-- The result word of a valid slot is the number its direct bits spell
(spec/30_encoding.md R89). -/
theorem ac4_directCode (m : AcMap) (A : List Byte) (k : Fin 4) :
    (ac4 (.valid (directCode m A k))).setWidth 32 = BitVec.ofNat 32 (directWeight m A k) := by
  have hlt := directWeight_lt m A k
  apply BitVec.eq_of_toNat_eq
  simp only [ac4, directCode_eq_ofNat, BitVec.toNat_setWidth, BitVec.toNat_ofNat]
  omega

theorem directCode_eq_zero_iff {m : AcMap} {A : List Byte} {k : Fin 4} :
    directCode m A k = 0 ↔ ∀ j, getbit A (m k j).direct = false := by
  constructor
  · intro h j
    rw [← getLsbD_directCode, h]
    exact BitVec.getLsbD_zero
  · intro h
    rw [directCode, h 0, h 1, h 2]
    rfl

/-- Settles O48: the consistent slot and the inconsistent one. -/
theorem decodeOfSlotFollowsRule : Obligations.DecodeOfSlotFollowsRule := fun m A k =>
  ⟨fun h => (acdec_of_pairs h).trans (congrArg _ (directCode_eq_ofNat m A k)), acdec_corrupt_iff.2⟩

/-! ### Slots of equal bits, and the code 000 -/

/-- Two equal bits are no consistent pair (spec/40_codec.md R113). -/
theorem acdec_corrupt_of_equal_bits {m : AcMap} {A : List Byte} {k : Fin 4} {v : Bool}
    (h : ∀ j, getbit A (m k j).direct = v ∧ getbit A (m k j).inverted = v) :
    acdec m A k = .corrupt := by
  refine acdec_corrupt_iff.2 fun hc => ?_
  obtain ⟨hd, hi⟩ := h 0
  have hpair := hc 0
  rw [hd, hi] at hpair
  exact Bool.eq_not_self v |>.1 hpair

theorem getbit_zeros : ∀ p, getbit [0x00, 0x00, 0x00, 0x00] p = false := by decide

theorem getbit_ones : ∀ p, getbit [0xff, 0xff, 0xff, 0xff] p = true := by decide

theorem acdec_eq_valid_zero_iff {m : AcMap} {A : List Byte} {k : Fin 4} :
    acdec m A k = .valid 0 ↔
      ∀ j, getbit A (m k j).direct = false ∧ getbit A (m k j).inverted = true := by
  constructor
  · intro h j
    have hpairs := acdec_valid_iff.1 ⟨0, h⟩
    rw [acdec_of_pairs hpairs] at h
    have hd := directCode_eq_zero_iff.1 (AccessCond.valid.inj h) j
    exact ⟨hd, by rw [← Bool.not_not (getbit A (m k j).inverted), ← hpairs j, hd]; rfl⟩
  · intro h
    have hpairs : ∀ j, getbit A (m k j).direct = !getbit A (m k j).inverted := fun j => by
      rw [(h j).1, (h j).2]; rfl
    rw [acdec_of_pairs hpairs, directCode_eq_zero_iff.2 fun j => (h j).1]

/-- A bit of the first three bytes does not depend on the fourth. -/
theorem getbit_eq_of_last_byte {p : Fin 32} (hp : p.val / 8 ≤ 2) (a b c x y : Byte) :
    getbit [a, b, c, x] p = getbit [a, b, c, y] p := by
  obtain h | h | h : p.val / 8 = 0 ∨ p.val / 8 = 1 ∨ p.val / 8 = 2 := by omega
  all_goals rw [getbit, getbit, h]; rfl

/-- With the default table `ff 0f 00` holds the code 000 in every slot (log entry 1). -/
theorem getbit_chip_000 (x : Byte) (k : Fin 4) (j : Fin 3) :
    getbit [0xff, 0x0f, 0x00, x] (chip.acmap k j).direct = false ∧
      getbit [0xff, 0x0f, 0x00, x] (chip.acmap k j).inverted = true := by
  obtain ⟨hd, hi⟩ := chip_pos_lt k j
  rw [getbit_eq_of_last_byte hd _ _ _ x 0x00, getbit_eq_of_last_byte hi _ _ _ x 0x00]
  exact (by decide : ∀ k j, getbit [0xff, 0x0f, 0x00, 0x00] (chip.acmap k j).direct = false ∧
    getbit [0xff, 0x0f, 0x00, 0x00] (chip.acmap k j).inverted = true) k j

/-- Settles O50. -/
theorem allEqualBitsDecodeCorrupt : Obligations.AllEqualBitsDecodeCorrupt :=
  ⟨fun _ _ _ _ h => acdec_corrupt_of_equal_bits h,
   fun _ _ => ⟨acdec_corrupt_of_equal_bits fun _ => ⟨getbit_zeros _, getbit_zeros _⟩,
     acdec_corrupt_of_equal_bits fun _ => ⟨getbit_ones _, getbit_ones _⟩⟩,
   fun _ _ _ => acdec_eq_valid_zero_iff,
   fun x k => acdec_eq_valid_zero_iff.2 (getbit_chip_000 x k)⟩

/-- Settles O51: the 12 entries of the table, and the distinctness of its 24 positions. -/
theorem acmapIsTheDefaultTable : Obligations.AcmapIsTheDefaultTable := ⟨by decide, chip_wf⟩

/-! ### The encode of a pair -/

/-- A position the pair does not name keeps its bit (spec/40_codec.md R117 b). -/
theorem getbit_acenc_of_ne {m : AcMap} {A : List Byte} (hA : A.length = 4) {k : Fin 4} {j : Fin 3}
    {p : Fin 32} (hd : p ≠ (m k j).direct) (hi : p ≠ (m k j).inverted) (v : Bool) :
    getbit (acenc m A k j v) p = getbit A p := by
  rw [getbit_acenc hA, if_neg hi, if_neg hd]

/-- An encode makes a bit from the bit of the same position alone. -/
theorem getbit_acenc_congr {m : AcMap} {A B : List Byte} (hA : A.length = 4) (hB : B.length = 4)
    {p : Fin 32} (h : getbit A p = getbit B p) (k : Fin 4) (j : Fin 3) (v : Bool) :
    getbit (acenc m A k j v) p = getbit (acenc m B k j v) p := by
  rw [getbit_acenc hA, getbit_acenc hB, h]

/-- Where the first pair names no bit, the order of two encodes does not matter. -/
theorem getbit_acenc_swap_of_ne {m : AcMap} {A : List Byte} (hA : A.length = 4) {k : Fin 4}
    {j : Fin 3} {p : Fin 32} (hd : p ≠ (m k j).direct) (hi : p ≠ (m k j).inverted) (v : Bool)
    (k' : Fin 4) (j' : Fin 3) (v' : Bool) :
    getbit (acenc m (acenc m A k j v) k' j' v') p =
      getbit (acenc m (acenc m A k' j' v') k j v) p := by
  have hl : ∀ k j v, (acenc m A k j v).length = 4 := fun k j v => by rw [acenc_length, hA]
  calc getbit (acenc m (acenc m A k j v) k' j' v') p
    _ = getbit (acenc m A k' j' v') p :=
      getbit_acenc_congr (hl k j v) hA (getbit_acenc_of_ne hA hd hi v) k' j' v'
    _ = getbit (acenc m (acenc m A k' j' v') k j v) p :=
      (getbit_acenc_of_ne (hl k' j' v') hd hi v).symm

section laws
variable {m : AcMap} (hm : m.WellFormed)
include hm

/-- Of two different pairs at most one names a position (spec/00_scope.md R8). -/
theorem acPairs_disjoint {k k' : Fin 4} {j j' : Fin 3} (hne : k' ≠ k ∨ j' ≠ j)
    (p : Fin 32) : (p ≠ (m k j).direct ∧ p ≠ (m k j).inverted) ∨
      (p ≠ (m k' j').direct ∧ p ≠ (m k' j').inverted) := by
  have hpair : ¬ (k = k' ∧ j = j') := by
    rintro ⟨rfl, rfl⟩
    exact hne.elim (· rfl) (· rfl)
  by_cases hd : p = (m k j).direct
  · exact .inr ⟨fun e => hpair (hm.direct_inj _ _ _ _ (hd ▸ e)),
      fun e => hm.direct_ne_inverted _ _ _ _ (hd ▸ e)⟩
  · by_cases hi : p = (m k j).inverted
    · exact .inr ⟨fun e => hm.direct_ne_inverted _ _ _ _ (e.symm.trans hi),
        fun e => hpair (hm.inverted_inj _ _ _ _ (hi ▸ e))⟩
    · exact .inl ⟨hd, hi⟩

variable {A : List Byte} (hA : A.length = 4)
include hA

/-- Every bit of a region encoded by a well-formed table (spec/40_codec.md R115). -/
theorem getbit_acenc_of_wf (k : Fin 4) (j : Fin 3) (v : Bool) (p : Fin 32) :
    getbit (acenc m A k j v) p =
      if p = (m k j).direct then v
      else if p = (m k j).inverted then !v
      else getbit A p := by
  rw [getbit_acenc hA]
  by_cases hd : p = (m k j).direct
  · subst hd
    rw [if_neg (hm.direct_ne_inverted k j k j), if_pos rfl, if_pos rfl]
  · rw [if_neg hd, if_neg hd]

/-- Encodes on two different pairs commute (spec/40_codec.md R117 g). -/
theorem acenc_comm {k k' : Fin 4} {j j' : Fin 3} (hne : k' ≠ k ∨ j' ≠ j) (v v' : Bool) :
    acenc m (acenc m A k j v) k' j' v' = acenc m (acenc m A k' j' v') k j v := by
  refine region_ext (by simpa using hA) (by simpa using hA) fun p => ?_
  obtain ⟨hd, hi⟩ | ⟨hd, hi⟩ := acPairs_disjoint hm hne p
  · exact getbit_acenc_swap_of_ne hA hd hi v k' j' v'
  · exact (getbit_acenc_swap_of_ne hA hd hi v' k j v).symm

/-- After an encode a pair of the slot is consistent iff it is the pair written or was consistent
before. -/
theorem pair_acenc_iff (k : Fin 4) (j : Fin 3) (v : Bool) (j' : Fin 3) :
    getbit (acenc m A k j v) (m k j').direct = (!getbit (acenc m A k j v) (m k j').inverted) ↔
      j' = j ∨ getbit A (m k j').direct = !getbit A (m k j').inverted := by
  rw [getbit_acenc_direct hm hA, getbit_acenc_inverted hm hA]
  by_cases hj : j' = j <;> simp [hj]

/-- An encode leaves the slot consistent iff its other two pairs are (spec/40_codec.md R117 e). -/
theorem pairs_acenc_iff (k : Fin 4) (j : Fin 3) (v : Bool) :
    (∀ j', getbit (acenc m A k j v) (m k j').direct =
        !getbit (acenc m A k j v) (m k j').inverted) ↔
      ∀ j', j' ≠ j → getbit A (m k j').direct = !getbit A (m k j').inverted :=
  forall_congr' fun j' => (pair_acenc_iff hm hA k j v j').trans or_iff_not_imp_left

/-- An encode into a valid slot changes just its bit of the code (spec/40_codec.md R117 d). -/
theorem acdec_acenc_of_valid {k : Fin 4} {c : BitVec 3} (hc : acdec m A k = .valid c) (j : Fin 3)
    (v : Bool) : ∃ c', acdec m (acenc m A k j v) k = .valid c' ∧
      ∀ j' : Fin 3, c'.getLsbD (2 - j'.val) = if j' = j then v else c.getLsbD (2 - j'.val) := by
  have hpairs := acdec_valid_iff.1 ⟨c, hc⟩
  rw [acdec_of_pairs hpairs] at hc
  obtain rfl := AccessCond.valid.inj hc
  refine ⟨_, acdec_of_pairs ((pairs_acenc_iff hm hA k j v).2 fun j' _ => hpairs j'), fun j' => ?_⟩
  simp only [getLsbD_directCode, getbit_acenc_direct hm hA, true_and]

/-- Three encodes, one per pair of a slot, make the slot valid with the bits written, whatever it
held (spec/40_codec.md R118). -/
theorem acdec_acenc_three (k : Fin 4) {j0 j1 j2 : Fin 3} (h01 : j0 ≠ j1) (h02 : j0 ≠ j2)
    (h12 : j1 ≠ j2) (v0 v1 v2 : Bool) :
    ∃ c, acdec m (acenc m (acenc m (acenc m A k j0 v0) k j1 v1) k j2 v2) k = .valid c ∧
      c.getLsbD (2 - j0.val) = v0 ∧ c.getLsbD (2 - j1.val) = v1 ∧ c.getLsbD (2 - j2.val) = v2 := by
  have hA0 : (acenc m A k j0 v0).length = 4 := by rw [acenc_length, hA]
  have hA1 : (acenc m (acenc m A k j0 v0) k j1 v1).length = 4 := by rw [acenc_length, hA0]
  refine ⟨_, acdec_of_pairs ((pairs_acenc_iff hm hA1 k j2 v2).2 fun j' h2 => ?_), ?_, ?_, ?_⟩
  · rw [pair_acenc_iff hm hA0, pair_acenc_iff hm hA]
    omega
  all_goals
    simp only [getLsbD_directCode, getbit_acenc_direct hm hA, getbit_acenc_direct hm hA0,
      getbit_acenc_direct hm hA1, h01, h02, h12, and_false, and_self, if_true, if_false]

end laws

/-- Settles O49: laws (a) to (g) of spec/40_codec.md R117 in their order. -/
theorem codecLawsHoldForEveryAcmap : Obligations.CodecLawsHoldForEveryAcmap := by
  intro m A k j v hm hA
  have hmend := pairs_acenc_iff hm hA k j v
  refine ⟨⟨?_, ?_⟩, fun p hd hi => getbit_acenc_of_ne hA hd hi v,
    fun k' hk => acdec_acenc_other hm hA k j v hk, fun c hc => acdec_acenc_of_valid hm hA hc j v,
    fun _ => ⟨fun h => acdec_valid_iff.2 (hmend.2 h), fun h => acdec_corrupt_iff.2 (h ∘ hmend.1)⟩,
    acenc_idem m hA k j v, fun k' j' v' hne => acenc_comm hm hA hne v v'⟩
  · rw [getbit_acenc_direct hm hA, if_pos ⟨rfl, rfl⟩]
  · rw [getbit_acenc_inverted hm hA, if_pos ⟨rfl, rfl⟩]

/-! ### Illegal headers of one opcode -/

/-- The pattern of a row fixes what it takes to select it. -/
theorem headerTable_row_of_pattern : ∀ r ∈ headerTable, ∀ r' ∈ headerTable,
    r.pattern = r'.pattern → r.mask = r'.mask ∧ r.posLimited = r'.posLimited := by
  decide

/-- A header that decodes selects the row of its opcode. -/
theorem selects_of_decode {r : HeaderRow} (hr : r ∈ headerTable) {h : Word} {i : Instr}
    (hop : h.extractLsb' 28 4 = r.pattern.extractLsb' 28 4) (hd : decode h = .ok i) :
    r.Selects h := by
  obtain ⟨r', hr', hs, -⟩ := exists_row_of_decode hd
  have hpat := headerTable_pattern_of_op r' hr' r hr ((op_of_selects hr' hs).symm.trans hop)
  obtain ⟨hmask, hpos⟩ := headerTable_row_of_pattern r' hr' r hr hpat
  rwa [HeaderRow.Selects, hmask, hpat, hpos] at hs

/-- A header with the opcode of a row that does not select the row is answered `ERR_ILLEGAL`
(spec/60_exceptions.md R211). -/
theorem answersIllegal_of_row {r : HeaderRow} (hr : r ∈ headerTable) {o : BitVec 4}
    (ho : r.pattern.extractLsb' 28 4 = o) {bad : Word → Prop}
    (hbad : ∀ h, r.Selects h → ¬ bad h) : AnswersIllegal o bad := by
  intro s h p rest hi hop hb
  rw [step_command hi]
  cases hd : decode h with
  | error e => rfl
  | ok i => exact absurd hb (hbad h (selects_of_decode hr (hop.trans ho.symm) hd))

/-! ### ACDEC and ACENC -/

theorem checkFrame_of_length_ne {i : Instr} {s : State} (h : s.payload.length ≠ i.paylen)
    (k : Out) : checkFrame i s k = .next (s.replied 6#4 0#32 []) := if_neg h

theorem posOf_of_toNat {pos : BitVec 2} {j : Fin 3} (h : pos.toNat = j.val) :
    posOf pos = some j := by
  unfold posOf
  rw [dif_pos (h ▸ j.isLt)]
  exact congrArg some (Fin.ext h)

theorem posOf_ne {p q : BitVec 2} {i j : Fin 3} (hp : posOf p = some i) (hq : posOf q = some j)
    (hpq : p ≠ q) : i ≠ j := by
  rintro rfl
  exact hpq (BitVec.eq_of_toNat_eq ((posOf_eq_some hp).2.symm.trans (posOf_eq_some hq).2))

/-- ACDEC of a 4-byte payload, from the decode of its slot (spec/40_codec.md R114). -/
theorem exec_acdec_of_decode {slot : BitVec 2} {s : State} {c : AccessCond}
    (hp : s.payload.length = 4) (hc : acdec chip.acmap s.payload slot.toFin = c) :
    exec (.acdec slot) s = .next (s.replied 0#4 ((ac4 c).setWidth 32) []) :=
  exec_of_effect ⟨hp, by rw [hc]; rfl⟩

/-- Settles O44: the row of ACDEC, the framing check, and the decode of a consistent and of an
inconsistent slot. -/
theorem acdecFollowsRule : Obligations.AcdecFollowsRule := by
  refine ⟨answersIllegal_of_row (r := headerTable[10]) (List.getElem_mem _) (by decide) ?_,
    fun s slot => ⟨fun hp => checkFrame_of_length_ne (i := .acdec slot) hp _,
      fun hp => ⟨fun h => ?_, fun h => ?_⟩⟩⟩
  · rintro h ⟨hm, -⟩ (hb | hb)
    · exact hb (field_zero_of_match hm 6 22 (by decide) (by decide))
    · exact hb (field_zero_of_match hm 0 4 (by decide) (by decide))
  · rw [exec_acdec_of_decode hp (acdec_of_pairs h), ac4_directCode, directWeight]
  · exact exec_acdec_of_decode hp (acdec_corrupt_iff.2 h)

/-- Settles O45: the row of ACENC, the framing check, and the encode of the pair `pos` names. -/
theorem acencFollowsRule : Obligations.AcencFollowsRule := by
  refine ⟨answersIllegal_of_row (r := headerTable[11]) (List.getElem_mem _) (by decide) ?_,
    fun s slot pos bit j hj => ⟨fun hp => ?_, fun hp => ?_⟩⟩
  · rintro h ⟨hm, hpos⟩ (hb | hb | hb)
    · exact hb (field_zero_of_match hm 9 19 (by decide) (by decide))
    · exact hb (field_zero_of_match hm 0 4 (by decide) (by decide))
    · exact hpos rfl hb
  · exact (checkPos_of_some (posOf_of_toNat hj)).trans
      (checkFrame_of_length_ne (i := .acenc slot pos bit) hp _)
  · exact ⟨acenc chip.acmap s.payload slot.toFin j bit, by rw [acenc_length, hp],
      getbit_acenc_of_wf chip_wf hp slot.toFin j bit,
      exec_of_effect ⟨hp, j, posOf_of_toNat hj, rfl⟩⟩

/-! ### EDITACB on one block, again and again -/

/-- The block `(sec, blk)` can be edited, and the access region of its sector is `A`. -/
structure RegionHeld (s : State) (sec : BitVec 6) (blk : BitVec 4) (A : List Byte) : Prop where
  idle     : s.payload = []
  legal    : LegalAt s sec blk
  coherent : s.Coherent
  region   : regionOf s.img sec.toNat = some A

theorem exists_regionHeld {s : State} {sec : BitVec 6} {blk : BitVec 4} (hp : s.payload = [])
    (hl : LegalAt s sec blk) (hc : s.Coherent) : ∃ A, RegionHeld s sec blk A := by
  obtain ⟨A, hA, -⟩ := regionOf_of_exact hc.img_exact hl.sec_lt
  exact ⟨A, hp, hl, hc, hA⟩

namespace RegionHeld
variable {s : State} {sec : BitVec 6} {blk : BitVec 4} {A : List Byte}

theorem length_eq (h : RegionHeld s sec blk A) : A.length = 4 := memRead_length h.region

/-- The condition of the block is the decode of its slot (spec/10_state.md R31, R34). -/
theorem acOf_eq (h : RegionHeld s sec blk A) : acOf s.act sec.toNat blk.toNat =
    some (acdec chip.acmap A (slotOf sec.toNat blk.toNat)) := by
  rw [acOf_actTable h.coherent.act h.legal.sec_lt, h.region]
  rfl

/-- EDITACB encodes its pair in the region, and the block can be edited again. -/
theorem exec_editacb (h : RegionHeld s sec blk A) {pos : BitVec 2} {j : Fin 3}
    (hj : posOf pos = some j) (bit : Bool) : ∃ t, exec (.editacb sec blk pos bit) s = .next t ∧
      RegionHeld t sec blk (acenc chip.acmap A (slotOf sec.toNat blk.toNat) j bit) := by
  obtain ⟨img, u, A', B, ac, -, -, hcu, himg, hlen, -, -, -, -, hA', -, hB, rfl, -, -, -, he⟩ :=
    editacb_effect bit hj h.idle h.legal h.coherent
  obtain rfl : A' = A := Option.some.inj (hA'.symm.trans h.region)
  exact ⟨_, exec_of_effect he, rfl, h.legal.of_len_eq hlen, answer_coherent hcu _ _ _,
    by rw [answer_img, himg, hB]⟩

end RegionHeld

/-- Settles O26: each command encodes its pair, and the three pairs make up the slot. -/
theorem threeEditacbMakeSlotValid : Obligations.ThreeEditacbMakeSlotValid := by
  intro s sec blk p0 p1 p2 v0 v1 v2 hp hl hc hp0 hp1 hp2 h01 h02 h12
  obtain ⟨j0, hj0, e0⟩ := posOf_of_ne hp0
  obtain ⟨j1, hj1, e1⟩ := posOf_of_ne hp1
  obtain ⟨j2, hj2, e2⟩ := posOf_of_ne hp2
  obtain ⟨A, hs⟩ := exists_regionHeld hp hl hc
  obtain ⟨t0, ht0, hr0⟩ := hs.exec_editacb hj0 v0
  obtain ⟨t1, ht1, hr1⟩ := hr0.exec_editacb hj1 v1
  obtain ⟨t2, ht2, hr2⟩ := hr1.exec_editacb hj2 v2
  obtain ⟨c, hdec, hc0, hc1, hc2⟩ := acdec_acenc_three chip_wf hs.length_eq
    (slotOf sec.toNat blk.toNat) (posOf_ne hj0 hj1 h01) (posOf_ne hj0 hj2 h02)
    (posOf_ne hj1 hj2 h12) v0 v1 v2
  exact ⟨t0, t1, t2, c, ht0, ht1, ht2, by rw [hr2.acOf_eq, hdec], e0 ▸ hc0, e1 ▸ hc1, e2 ▸ hc2⟩

end Sys2Proof.Machine
end

section
/-! The value-block family (spec/41_valueblock.md): the five tests are the equations of R133 (a),
each byte of a passing block is fixed by another byte, and VBCHK answers the verdict. -/

namespace Sys2Proof.Machine

open Sys2Proof.Spec

/-! ### The five tests as equations of bytes -/

section tests
variable {B : List Byte}

theorem eq_complement_comm {a b : Byte} : a = ~~~b ↔ b = ~~~a :=
  eq_comm.trans BitVec.not_eq_comm

theorem warnComplement_eq_false_iff :
    warnComplement B = false ↔ ∀ i < 4, byteAt B (4 + i) = ~~~(byteAt B i) := by
  simp only [warnComplement, Bool.not_eq_false', List.all_eq_true, List.mem_range, beq_iff_eq]
  exact forall₂_congr fun _ _ => eq_complement_comm

theorem warnRepeat_eq_false_iff :
    warnRepeat B = false ↔ ∀ i < 4, byteAt B (8 + i) = byteAt B i := by
  simp only [warnRepeat, Bool.not_eq_false', List.all_eq_true, List.mem_range, beq_iff_eq]
  exact forall₂_congr fun _ _ => eq_comm

theorem warnAddrComplement_eq_false_iff :
    warnAddrComplement B = false ↔ byteAt B 13 = ~~~(byteAt B 12) :=
  bne_eq_false_iff_eq.trans eq_complement_comm

theorem warnAddrRepeat_eq_false_iff :
    warnAddrRepeat B = false ↔ byteAt B 14 = byteAt B 12 :=
  bne_eq_false_iff_eq.trans eq_comm

theorem warnAddrComplementRepeat_eq_false_iff :
    warnAddrComplementRepeat B = false ↔ byteAt B 15 = ~~~(byteAt B 12) :=
  bne_eq_false_iff_eq.trans eq_complement_comm

theorem vbcheck_eq_ok_iff_flags : vbcheck B = .ok ↔
    warnComplement B = false ∧ warnRepeat B = false ∧ warnAddrComplement B = false ∧
      warnAddrRepeat B = false ∧ warnAddrComplementRepeat B = false := by
  simp [vbcheck, and_assoc]

/-- Spec/41_valueblock.md R133 (a). The two tests of the value stand in one equation per byte. -/
theorem vbcheck_eq_ok_iff : vbcheck B = .ok ↔ ValueBlockPasses B := by
  rw [vbcheck_eq_ok_iff_flags, warnComplement_eq_false_iff, warnRepeat_eq_false_iff,
    warnAddrComplement_eq_false_iff, warnAddrRepeat_eq_false_iff,
    warnAddrComplementRepeat_eq_false_iff]
  exact ⟨fun ⟨hc, hr, ha⟩ => ⟨fun i hi => ⟨hc i hi, hr i hi⟩, ha⟩,
    fun ⟨hv, ha⟩ => ⟨fun i hi => (hv i hi).1, fun i hi => (hv i hi).2, ha⟩⟩

theorem vbcheck_eq_warning_iff : vbcheck B = .warning ↔ ¬ ValueBlockPasses B := by
  rw [← vbcheck_eq_ok_iff]
  cases vbcheck B <;> decide

end tests

/-! ### The laws of the check -/

theorem byteAt_set_self {B : List Byte} {i : Nat} (hi : i < B.length) (x : Byte) :
    byteAt (B.set i x) i = x := by
  simp [byteAt, hi]

theorem byteAt_set_of_ne {B : List Byte} {i j : Nat} (hji : j ≠ i) (x : Byte) :
    byteAt (B.set i x) j = byteAt B j := by
  simp [byteAt, List.getElem?_set_ne hji.symm]

/-- Each of the 16 bytes takes part in a test with another byte, which fixes it in a passing block
(spec/41_valueblock.md R133 d). -/
theorem exists_byte_fixing {i : Nat} (hi : i < 16) : ∃ j ≠ i, ∃ f : Byte → Byte,
    ∀ B, ValueBlockPasses B → byteAt B i = f (byteAt B j) := by
  have hcases : i < 4 ∨ (∃ k < 4, i = 4 + k) ∨ (∃ k < 4, i = 8 + k) ∨
      i = 12 ∨ i = 13 ∨ i = 14 ∨ i = 15 := by
    by_cases h8 : i < 8
    · exact if h4 : i < 4 then .inl h4 else .inr (.inl ⟨i - 4, by omega, by omega⟩)
    · exact if h12 : i < 12 then .inr (.inr (.inl ⟨i - 8, by omega, by omega⟩)) else by omega
  obtain h | ⟨k, hk, rfl⟩ | ⟨k, hk, rfl⟩ | rfl | rfl | rfl | rfl := hcases
  · exact ⟨8 + i, by omega, id, fun B ⟨hv, _⟩ => (hv i h).2.symm⟩
  · exact ⟨k, by omega, (~~~·), fun B ⟨hv, _⟩ => (hv k hk).1⟩
  · exact ⟨k, by omega, id, fun B ⟨hv, _⟩ => (hv k hk).2⟩
  · exact ⟨14, by decide, id, fun B ⟨_, _, h14, _⟩ => h14.symm⟩
  · exact ⟨12, by decide, (~~~·), fun B ⟨_, h13, _⟩ => h13⟩
  · exact ⟨12, by decide, id, fun B ⟨_, _, h14, _⟩ => h14⟩
  · exact ⟨12, by decide, (~~~·), fun B ⟨_, _, _, h15⟩ => h15⟩

/-- If a passing block still passes with byte `i` set to `x`, that byte was `x`. -/
theorem getElem?_of_passes_set {B : List Byte} {i : Nat} {x : Byte} (hB : B.length = 16)
    (hi : i < 16) (hp : ValueBlockPasses B) (hset : ValueBlockPasses (B.set i x)) :
    B[i]? = some x := by
  obtain ⟨j, hji, f, hf⟩ := exists_byte_fixing hi
  have hlen : i < B.length := hB ▸ hi
  have hx : x = byteAt B i := calc
    x = byteAt (B.set i x) i := (byteAt_set_self hlen x).symm
    _ = f (byteAt (B.set i x) j) := hf _ hset
    _ = f (byteAt B j) := by rw [byteAt_set_of_ne hji]
    _ = byteAt B i := (hf B hp).symm
  simp [hx, byteAt, hlen]

theorem valueBlockPasses_of_fields (v0 v1 v2 v3 a : Byte) :
    ValueBlockPasses [v0, v1, v2, v3, ~~~v0, ~~~v1, ~~~v2, ~~~v3, v0, v1, v2, v3,
      a, ~~~a, a, ~~~a] := by
  refine ⟨fun i hi => ?_, rfl, rfl, rfl⟩
  match i, hi with
  | 0, _ | 1, _ | 2, _ | 3, _ => exact ⟨rfl, rfl⟩

/-- Settles O52: the five tests are the equations, and a changed byte breaks the one that fixes
it. -/
theorem valueBlockCheckLaws : Obligations.ValueBlockCheckLaws :=
  ⟨fun v0 v1 v2 v3 a => vbcheck_eq_ok_iff.2 (valueBlockPasses_of_fields v0 v1 v2 v3 a),
    fun _ _ => vbcheck_eq_ok_iff, by decide, by decide,
    fun _ _ _ hB hi hok hne => vbcheck_eq_warning_iff.2 fun hset =>
      hne (getElem?_of_passes_set hB hi (vbcheck_eq_ok_iff.1 hok) hset)⟩

/-! ### VBCHK -/

/-- VBCHK of a 16-byte payload, from the verdict on it (spec/41_valueblock.md R131). -/
theorem exec_vbchk_of_vbcheck {s : State} {w : VbStatus} (hp : s.payload.length = 16)
    (hw : vbcheck s.payload = w) : exec .vbchk s = .next (s.replied 0#4 (vbCode w) []) :=
  exec_of_effect ⟨hp, by rw [hw]; rfl⟩

/-- Settles O46: the row of VBCHK, the framing check, and the verdict on the payload. -/
theorem vbchkFollowsRule : Obligations.VbchkFollowsRule := by
  refine ⟨answersIllegal_of_row (r := headerTable[12]) (List.getElem_mem _) (by decide) ?_,
    fun s => ⟨fun hp => checkFrame_of_length_ne (i := .vbchk) hp _,
      fun hp => ⟨fun h => exec_vbchk_of_vbcheck hp (vbcheck_eq_ok_iff.2 h),
        fun h => exec_vbchk_of_vbcheck hp (vbcheck_eq_warning_iff.2 h)⟩⟩⟩
  rintro h ⟨hm, -⟩ hb
  exact hb (field_zero_of_match hm 0 28 (by decide) (by decide))

end Sys2Proof.Machine
end

section
/-! The checksum family (spec/42_checksum.md): the checksum is a fold by a commutative and
associative operation in which each byte is its own inverse, and BCC answers it. -/

namespace Sys2Proof.Machine

open Sys2Proof.Spec

/-! ### The laws of the checksum -/

@[simp] theorem bcc_singleton (x : Byte) : bcc [x] = x := by
  rw [bcc_cons, bcc_nil, BitVec.xor_zero]

/-- The fold from the right, which takes the bytes in the other order. -/
theorem bcc_eq_foldr (X : List Byte) : bcc X = X.foldr (fun x acc => x ^^^ acc) 0#8 := by
  induction X with
  | nil => rfl
  | cons x X ih => rw [bcc_cons, ih, List.foldr_cons]

/-- Spec/42_checksum.md R140: the order of the bytes does not matter. -/
theorem bcc_perm {X Y : List Byte} (h : X.Perm Y) : bcc X = bcc Y := by
  rw [bcc_eq_foldr, bcc_eq_foldr]
  exact h.foldr_eq 0#8

theorem bcc_append_self (X : List Byte) : bcc (X ++ X) = 0#8 := by
  rw [bcc_append, BitVec.xor_self]

/-- Spec/42_checksum.md R141: the checksum of a list that ends in its own checksum. -/
theorem bcc_append_bcc (X : List Byte) : bcc (X ++ [bcc X]) = 0#8 := by
  rw [bcc_append, bcc_singleton, BitVec.xor_self]

/-- Settles O53: `bcc` of appended lists is the exclusive or of both, and an even list of equal bytes
is one list appended to itself. -/
theorem checksumLaws : Obligations.ChecksumLaws := by
  refine ⟨bcc_nil, fun X x => ?_, fun _ _ => bcc_perm, bcc_append_bcc, fun x n => ?_⟩
  · rw [bcc_append, bcc_singleton]
  · rw [two_mul, ← List.replicate_append_replicate]
    exact bcc_append_self _

/-! ### BCC -/

/-- Settles O47: the row of BCC, the framing check, and the checksum of the payload. -/
theorem bccFollowsRule : Obligations.BccFollowsRule := by
  refine ⟨answersIllegal_of_row (r := headerTable[13]) (List.getElem_mem _) (by decide) ?_,
    fun s len => ⟨fun hp => checkFrame_of_length_ne (i := .bcc len) hp _, fun hp => ?_⟩⟩
  · rintro h ⟨hm, -⟩ hb
    exact hb (field_zero_of_match hm 16 12 (by decide) (by decide))
  · rw [← bcc_eq_foldr]
    exact exec_of_effect ⟨hp, rfl⟩

end Sys2Proof.Machine
end

section
/-! The card-image family (spec/43_cardimage.md): the status of a block and the rebuild, the rules of
the four commands, what an edit leaves of the two tables, that a legal command completes, and what
SERIALIZE returns after a PARSE and the commands between. -/

namespace Sys2Proof.Machine

open Sys2Proof.Spec

/-! ### The status of a block -/

theorem blockStatus_manufacturer (c : Config) (img : Memory) (act : List AcRow) {s b : Nat}
    (h : s = 0 ∧ b = 0) : blockStatus c img act s b = some .ok := if_pos h

theorem blockStatus_trailer (c : Config) (img : Memory) (act : List AcRow) {s b : Nat}
    (h : b = tb s) : blockStatus c img act s b = some .ok := by
  by_cases h0 : s = 0 ∧ b = 0
  · exact blockStatus_manufacturer c img act h0
  · rw [blockStatus, if_neg h0, if_pos h]

/-- A block whose condition is not a code of `VB_CODES` is not checked: its status is `OK`
(spec/43_cardimage.md R154). -/
theorem blockStatus_of_not_eligible {c : Config} {act : List AcRow} {s b : Nat} {ac : AccessCond}
    (img : Memory) (hac : acOf act s b = some ac) (hx : ∀ x, ac = .valid x → x ∉ c.vbCodes) :
    blockStatus c img act s b = some .ok := by
  by_cases h0 : s = 0 ∧ b = 0
  · exact blockStatus_manufacturer c img act h0
  · by_cases h1 : b = tb s
    · exact blockStatus_trailer c img act h1
    · rw [blockStatus, if_neg h0, if_neg h1, hac]
      cases ac with
      | corrupt => rfl
      | valid x => exact if_neg (hx x rfl)

/-- An eligible block has the verdict of the value-block check (spec/43_cardimage.md R154). -/
theorem blockStatus_of_eligible {c : Config} {img : Memory} {act : List AcRow} {s b : Nat}
    {x : BitVec 3} {B : List Byte} (h0 : ¬ (s = 0 ∧ b = 0)) (h1 : b ≠ tb s)
    (hac : acOf act s b = some (.valid x)) (hx : x ∈ c.vbCodes)
    (hB : memRead img (off s b) 16 = some B) :
    blockStatus c img act s b = some (vbcheck B) := by
  rw [blockStatus, if_neg h0, if_neg h1, hac]
  exact (if_pos hx).trans (by rw [hB, Option.map_some])

/-- Settles O30, by the branches of R154 in their order. -/
theorem blockStatusFollowsRule : Obligations.BlockStatusFollowsRule := fun c img act _ _ =>
  ⟨blockStatus_manufacturer c img act, blockStatus_trailer c img act,
    fun hac => blockStatus_of_not_eligible img hac nofun,
    fun _ hac hx => blockStatus_of_not_eligible img hac fun _ e => AccessCond.valid.inj e ▸ hx,
    fun _ _ h0 h1 hac hx hB => blockStatus_of_eligible h0 h1 hac hx hB⟩

/-! ### The rebuild -/

/-- Settles O28: a row is the decode of its sector's region, and a legal block stands at its flat
number. -/
theorem rebuildComputesEveryEntry : Obligations.RebuildComputesEveryEntry := by
  intro c len img act vbs _ ht
  obtain ⟨hact, hvbs⟩ := tables_eq_some.1 ht
  obtain ⟨hactlen, hrows⟩ := actTable_eq_some.1 hact
  refine ⟨hactlen, (vbsTable_eq_some.1 hvbs).1, fun s hs => ?_, fun s b hs hb => vbs_flat hvbs hs hb⟩
  have hrow := hrows s hs
  rw [List.getElem?_eq_getElem (hactlen ▸ hs)] at hrow
  obtain ⟨A, hA, hget⟩ := Option.map_eq_some_iff.1 hrow
  exact ⟨A, acRow c.acmap A, hA, by rw [← hrows s hs, hA, Option.map_some], acRow_get c.acmap A⟩

/-- A store with a value at every address below a legal length has the tables of the dump of those
bytes (spec/43_cardimage.md R153). -/
theorem exists_tables_of_reads (c : Config) {len : Nat} {img : Memory} (hl : LegalLen len)
    (h : ∀ a < len, (Memory.read img a).isSome = true) :
    ∃ act vbs, tables c len img = some (act, vbs) := by
  obtain ⟨X, hX⟩ := memRead_isSome (m := img) (a := 0) (n := len) fun i hi => by
    rw [Nat.zero_add]; exact h i hi
  obtain rfl : X.length = len := memRead_length hX
  have hsame : ∀ a < X.length, Memory.read img a = Memory.read (imageOf 0 X) a := fun a ha => by
    rw [read_imageOf_zero, ← memRead_getElem hX ha, Nat.zero_add]
  rw [tables_congr c hl hsame]
  exact tables_of_exact c hl (imageOf_zero_addresses X)

/-- Settles O29. -/
theorem rebuildIsTotal : Obligations.RebuildIsTotal := fun c _ _ hlen h =>
  ⟨exists_tables_of_reads c (.inr hlen) h, fun _ hsame => tables_congr c (.inr hlen) hsame⟩

/-! ### Errors -/

/-- A block outside the geometry is answered `ERR_ADDRESS` (spec/43_cardimage.md R151). -/
theorem checkImage_of_outside {sec blk : Nat} {s : State} (hl : s.len ≠ 0#13)
    (h : nsec s.len.toNat ≤ sec ∨ nblk sec ≤ blk) (k : Out) :
    checkImage sec blk s k = .next (s.replied 3#4 0#32 []) := by
  rw [checkImage, checkLoaded_of_loaded hl]
  by_cases hs : nsec s.len.toNat ≤ sec
  · exact if_pos hs
  · exact (if_neg hs).trans (if_pos (h.resolve_left hs))

/-- The errors of a command that takes no payload and makes the framing check, then that of the
address (spec/60_exceptions.md R218). -/
theorem imageErrors_of_exec {i : Instr} {s : State} {sec blk : Nat} {k : Out} (hlen : i.paylen = 0)
    (h : exec i s = checkFrame i s (checkImage sec blk s k)) : ImageErrors i s sec blk := by
  have hframe : s.payload = [] → exec i s = checkImage sec blk s k := fun hp =>
    h.trans (checkFrame_of_length (by rw [hp, hlen]; rfl))
  refine ⟨fun hp => h.trans (checkFrame_of_length_ne ?_ _), fun hp hl => ?_, fun hp hl hout => ?_⟩
  · rw [hlen]; exact fun e => hp (List.length_eq_zero_iff.1 e)
  · exact (hframe hp).trans (checkImage_of_unloaded sec blk k hl)
  · exact (hframe hp).trans (checkImage_of_outside hl hout k)

/-- A command answered with another status than `OK` leaves its response and nothing else
(spec/60_exceptions.md R219). -/
theorem exec_of_status_ne {i : Instr} {s t : State} {r : Response} (h : exec i s = .next t)
    (hr : t.outbox = s.outbox ++ [r]) (hne : r.status ≠ 0) : t = s.replied r.status 0#32 [] := by
  obtain ⟨-, -, r', hr', ⟨h0, -⟩ | ⟨e, -, -, hst, rfl⟩⟩ := exec_response h
  · exact absurd (response_unique hr hr' ▸ h0) hne
  · rw [response_unique hr hr', hst, answer_eq_replied]

/-! ### PARSE -/

/-- PARSE of a size that is not legal is answered `ERR_INVALID_SIZE` (spec/60_exceptions.md R213). -/
theorem exec_parse_of_size {len : BitVec 16} {s : State} (hp : s.payload.length = len.toNat)
    (hz : ¬ (len.toNat = 320 ∨ len.toNat = 1024 ∨ len.toNat = 4096)) :
    exec (.parse len) s = .next (s.replied 1#4 0#32 []) :=
  (checkFrame_of_length (i := .parse len) hp).trans (if_neg (mt (legalSize_iff _).1 hz))

/-- PARSE of a legal size loads its payload (spec/43_cardimage.md R160). -/
theorem exec_parse_loads {len : BitVec 16} {s : State} (hp : s.payload.length = len.toNat)
    (hz : len.toNat = 320 ∨ len.toNat = 1024 ∨ len.toNat = 4096) :
    ∃ u, loadImage s.payload s = some u ∧ u.Coherent ∧ u.img = imageOf 0 s.payload ∧
      u.len.toNat = len.toNat ∧ u.dirty = false ∧ u.inbox = s.inbox ∧ u.outbox = s.outbox ∧
      exec (.parse len) s = .next (answer okCode (len.setWidth 32) [] u) := by
  have hlegal := (legalSize_iff _).2 hz
  obtain ⟨u, hu, hc, himg, hlen, hdirty, -, hin, hout⟩ :=
    loadImage_coherent (X := s.payload) (by rwa [hp]) s
  exact ⟨u, hu, hc, himg, hlen.trans hp, hdirty, hin, hout, exec_of_effect ⟨hp, hlegal, u, hu, rfl⟩⟩

/-- Settles O19: the row of PARSE, the two checks, and the load. -/
theorem parseFollowsRule : Obligations.ParseFollowsRule := by
  refine ⟨answersIllegal_of_row (r := headerTable[0]) (List.getElem_mem _) (by decide) ?_,
    fun s len => ⟨fun hp => checkFrame_of_length_ne (i := .parse len) hp _,
      exec_parse_of_size, fun hp hz => ?_⟩⟩
  · rintro h ⟨hm, -⟩ hb
    exact hb (field_zero_of_match hm 16 12 (by decide) (by decide))
  · obtain ⟨u, -, hc, himg, hlen, hdirty, hin, hout, hx⟩ := exec_parse_loads hp hz
    refine ⟨_, hx, hlen, hdirty, fun a => ?_, hc.tables_eq, rfl, hin, ?_⟩
    · rw [answer_img, himg, read_imageOf_zero]
    · rw [answer_outbox, hout]; rfl

/-- The image a dump becomes is the same whatever state it replaces (spec/43_cardimage.md R161). -/
theorem loadImage_of_other {X : List Byte} {s u : State} (h : loadImage X s = some u) (s' : State) :
    loadImage X s' =
      some { u with payload := s'.payload, inbox := s'.inbox, outbox := s'.outbox } := by
  obtain ⟨act, vbs, ht, rfl⟩ := loadImage_eq_some.1 h
  exact loadImage_eq_some.2 ⟨act, vbs, ht, rfl⟩

/-- Settles O20. -/
theorem parseReplacesWholeState : Obligations.ParseReplacesWholeState := by
  refine ⟨fun s s' len hp hsame hz => ?_, fun s t len r => exec_of_status_ne⟩
  obtain ⟨u, hu, -, -, -, hdirty, -, -, hx⟩ := exec_parse_loads hp hz
  have hu' := hsame.symm ▸ loadImage_of_other hu s'
  exact ⟨_, _, hx, exec_of_effect ⟨hsame ▸ hp, (legalSize_iff _).2 hz, _, hu', rfl⟩, hdirty, rfl⟩

/-! ### SERIALIZE -/

theorem image_some {s : State} (hc : s.Coherent) : ∃ q, memRead s.img 0 s.len.toNat = some q :=
  memRead_of_exact hc.img_exact (Nat.zero_add _).le

/-- SERIALIZE of a coherent state returns the bytes of its image (spec/43_cardimage.md R175). -/
theorem exec_serialize_returns {s : State} (hp : s.payload = []) (hl : s.len ≠ 0#13)
    (hc : s.Coherent) : ∃ q, memRead s.img 0 s.len.toNat = some q ∧ exec .serialize s =
      .next (State.replied { s with dirty := false } 0#4 (s.len.setWidth 32) q) := by
  obtain ⟨q, hq⟩ := image_some hc
  exact ⟨q, hq, exec_of_effect ⟨hp, hl, q, hq, rfl⟩⟩

/-- Settles O21: the row of SERIALIZE, the two checks, and the bytes of the image. -/
theorem serializeFollowsRule : Obligations.SerializeFollowsRule := by
  refine ⟨answersIllegal_of_row (r := headerTable[1]) (List.getElem_mem _) (by decide) ?_,
    fun s => ⟨fun hp => ?_, fun hp hl => ?_, fun hp hl hc => ?_⟩⟩
  · rintro h ⟨hm, -⟩ hb
    exact hb (field_zero_of_match hm 0 28 (by decide) (by decide))
  · exact checkFrame_of_length_ne (i := .serialize) (mt List.length_eq_zero_iff.1 hp) _
  · exact exec_of_unloaded (i := .serialize) rfl (by rw [hp]; rfl) hl rfl
  · obtain ⟨q, hq, hx⟩ := exec_serialize_returns hp hl hc
    refine ⟨q, memRead_length hq, fun a ha => ?_, hx⟩
    rw [← memRead_getElem hq ha, Nat.zero_add]

/-! ### EDITNIB -/

theorem isBccNibble_toNat_iff {sec : BitVec 6} {blk : BitVec 4} {nib : BitVec 5} :
    isBccNibble sec.toNat blk.toNat nib.toNat = true ↔
      sec = 0 ∧ blk = 0 ∧ (nib = 8 ∨ nib = 9) := by
  simp only [isBccNibble_iff, ← BitVec.toNat_inj]
  rfl

theorem isUidNibble_toNat_iff {sec : BitVec 6} {blk : BitVec 4} {nib : Nat} :
    isUidNibble sec.toNat blk.toNat nib = true ↔ sec = 0 ∧ blk = 0 ∧ nib ≤ 7 := by
  simp only [isUidNibble_iff, ← BitVec.toNat_inj]
  rfl

/-- A nibble of the BCC byte is protected (spec/43_cardimage.md R166). -/
theorem exec_editnib_of_bcc {s : State} {sec : BitVec 6} {blk : BitVec 4} {nib : BitVec 5}
    (val : BitVec 4) (hp : s.payload = []) (hl : LegalAt s sec blk)
    (hn : isBccNibble sec.toNat blk.toNat nib.toNat = true) :
    exec (.editnib sec blk nib val) s = .next (s.replied 4#4 0#32 []) :=
  (checkFrame_of_length (i := .editnib sec blk nib val) (by rw [hp]; rfl)).trans <|
    (checkImage_of_legal hl).trans (if_pos hn)

/-- The checksum of the four bytes of the UID (spec/42_checksum.md R142). -/
theorem exists_uid_of_memRead {img : Memory} {uid : List Byte} (h : memRead img 0 4 = some uid) :
    ∃ u0 u1 u2 u3, Memory.read img 0 = some u0 ∧ Memory.read img 1 = some u1 ∧
      Memory.read img 2 = some u2 ∧ Memory.read img 3 = some u3 ∧
      bcc uid = u0 ^^^ u1 ^^^ u2 ^^^ u3 := by
  match uid, memRead_length h with
  | [u0, u1, u2, u3], _ =>
    exact ⟨u0, u1, u2, u3, memRead_getElem h (i := 0) (by decide),
      memRead_getElem h (i := 1) (by decide), memRead_getElem h (i := 2) (by decide),
      memRead_getElem h (i := 3) (by decide), by simp [bcc]⟩

/-- Settles O23: the row of EDITNIB, its errors in their order, and every byte after the edit. -/
theorem editnibFollowsRule : Obligations.EditnibFollowsRule := by
  refine ⟨answersIllegal_of_row (r := headerTable[2]) (List.getElem_mem _) (by decide) ?_,
    fun s sec blk nib val => ⟨imageErrors_of_exec rfl rfl,
      fun hp hl hn => exec_editnib_of_bcc val hp hl (isBccNibble_toNat_iff.2 hn),
      fun hp hl hn hc => ?_⟩⟩
  · rintro h ⟨hm, -⟩ hb
    exact hb (field_zero_of_match hm 0 9 (by decide) (by decide))
  · obtain ⟨img, u, hi, -, hcu, rfl, hlen, hdirty, -, hin, hout, he⟩ :=
      editnib_effect val hp hl (Bool.eq_false_iff.2 (mt isBccNibble_toNat_iff.1 hn)) hc
    obtain ⟨old, hold, hnew, hrest, hbcc⟩ := nibbleEdit_reads hi
    refine ⟨_, old, setNibble old nib.toNat val, exec_of_effect he, hold, hnew,
      setNibble_even old val, fun hodd => setNibble_odd old val (by omega), fun huid => ?_,
      fun c hne h4 => hrest c hne (h4 ∘ isUidNibble_toNat_iff.1), hlen, hdirty, hcu.tables_eq,
      rfl, hin, ?_⟩
    · obtain ⟨uid, hread, h4⟩ := hbcc (isUidNibble_toNat_iff.2 huid)
      obtain ⟨u0, u1, u2, u3, h0, h1, h2, h3, hxor⟩ := exists_uid_of_memRead hread
      exact ⟨u0, u1, u2, u3, h0, h1, h2, h3, hxor ▸ h4⟩
    · rw [answer_outbox, hout]; rfl

/-! ### EDITACB -/

theorem ac4_setWidth (c : AccessCond) : (ac4 c).setWidth 32 = acResult c := by
  cases c with
  | valid c => exact BitVec.setWidth_setWidth (by decide)
  | corrupt => rfl

/-- Settles O24: the row of EDITACB, its errors in their order, and the region after the edit. -/
theorem editacbFollowsRule : Obligations.EditacbFollowsRule := by
  refine ⟨answersIllegal_of_row (r := headerTable[3]) (List.getElem_mem _) (by decide) ?_,
    fun s sec blk pos bit j hj => ⟨imageErrors_of_exec rfl (checkPos_of_some (posOf_of_toNat hj)),
      fun hp hl hc => ?_⟩⟩
  · rintro h ⟨hm, hpos⟩ (hb | hb | hb)
    · exact hb (field_zero_of_match hm 9 9 (by decide) (by decide))
    · exact hb (field_zero_of_match hm 0 6 (by decide) (by decide))
    · exact hpos rfl hb
  · obtain ⟨img, u, A, B, ac, -, -, hcu, rfl, hlen, hdirty, -, hin, hout, hA, hAl, hB, rfl, hrest,
      hac, hdec, he⟩ := editacb_effect bit (posOf_of_toNat hj) hp hl hc
    refine ⟨_, A, _, exec_of_effect he, hA, hB,
      getbit_acenc_of_wf chip_wf hAl (slotOf sec.toNat blk.toNat) j bit, hrest, hlen, hdirty,
      hcu.tables_eq, ac, hac, hdec, rfl, hin, ?_⟩
    rw [answer_outbox, hout, ac4_setWidth]; rfl

/-! ### What an edit of one block leaves of the tables -/

/-- From `s` to `u` bytes of the block `(sec, blk)` have changed and no other, and both tables stand
as rebuilt. -/
structure EditedIn (s u : State) (sec blk : Nat) : Prop where
  before  : s.Coherent
  after   : u.Coherent
  len_eq  : u.len = s.len
  sec_lt  : sec < nsec s.len.toNat
  blk_lt  : blk < nblk sec
  changed : ∀ c, Memory.read u.img c ≠ Memory.read s.img c → ∃ x < 16, c = off sec blk + x

/-- The status of the block is the check of its bytes (spec/43_cardimage.md R154). -/
structure Checked (act : List AcRow) (s b : Nat) : Prop where
  not_manufacturer : ¬ (s = 0 ∧ b = 0)
  not_trailer      : b ≠ tb s
  eligible         : ∃ x, acOf act s b = some (.valid x) ∧ x ∈ chip.vbCodes

theorem acOf_of_slotOf_eq {act : List AcRow} {s b b' : Nat} (h : slotOf s b' = slotOf s b) :
    acOf act s b' = acOf act s b := by rw [acOf, acOf, h]

namespace EditedIn
variable {s u : State} {sec blk : Nat}

/-- The bytes of another block are as they were (spec/20_memory.md R51). -/
theorem read_eq (h : EditedIn s u sec blk) {s' b' x : Nat} (hs : s' < nsec s.len.toNat)
    (hb : b' < nblk s') (hx : x < 16) (hne : ¬ (s' = sec ∧ b' = blk)) :
    Memory.read u.img (off s' b' + x) = Memory.read s.img (off s' b' + x) := by
  by_contra hch
  obtain ⟨y, hy, hxy⟩ := h.changed _ hch
  obtain ⟨rfl, rfl, -⟩ := off_disjoint hs hb h.sec_lt h.blk_lt hx hy hxy
  exact hne ⟨rfl, rfl⟩

/-- The access region of a trailer that is not the edited block is as it was. -/
theorem regionOf_eq (h : EditedIn s u sec blk) {s' : Nat} (hs : s' < nsec s.len.toNat)
    (hne : s' = sec → blk ≠ tb sec) : regionOf u.img s' = regionOf s.img s' := by
  refine regionOf_congr fun i hi => ?_
  rw [accessOff, Nat.add_assoc]
  refine h.read_eq hs (tb_lt s') (by omega) ?_
  rintro ⟨rfl, rfl⟩
  exact hne rfl rfl

/-- A sector whose region decodes as before keeps its row. -/
theorem act_getElem?_eq (h : EditedIn s u sec blk) {s' : Nat}
    (hrow : s' < nsec s.len.toNat → (regionOf u.img s').map (acRow chip.acmap) =
      (regionOf s.img s').map (acRow chip.acmap)) : u.act[s']? = s.act[s']? := by
  obtain ⟨hlen, hrows⟩ := actTable_eq_some.1 h.before.act
  obtain ⟨hlen', hrows'⟩ := actTable_eq_some.1 h.after.act
  rw [h.len_eq] at hlen' hrows'
  by_cases hs : s' < nsec s.len.toNat
  · rw [← hrows' s' hs, ← hrows s' hs, hrow hs]
  · rw [List.getElem?_eq_none (by omega), List.getElem?_eq_none (by omega)]

/-- A sector whose trailer is not the edited block keeps its row. -/
theorem act_getElem?_of_ne (h : EditedIn s u sec blk) {s' : Nat}
    (hne : s' = sec → blk ≠ tb sec) : u.act[s']? = s.act[s']? :=
  h.act_getElem?_eq fun hs => by rw [h.regionOf_eq hs hne]

/-- An edit of a block that is no trailer leaves `ACT`. -/
theorem act_eq (h : EditedIn s u sec blk) (hne : blk ≠ tb sec) : u.act = s.act :=
  List.ext_getElem? fun _ => h.act_getElem?_of_ne fun _ => hne

/-- A block keeps its status if it keeps its condition and is not both edited and checked. -/
theorem vbs_flat_eq (h : EditedIn s u sec blk) {s' b' : Nat} (hs : s' < nsec s.len.toNat)
    (hb : b' < nblk s') (hac : b' ≠ tb s' → acOf u.act s' b' = acOf s.act s' b')
    (hne : Checked s.act s' b' → ¬ (s' = sec ∧ b' = blk)) :
    u.vbs[flat s' b']? = s.vbs[flat s' b']? := by
  rw [vbs_flat h.after.vbs (h.len_eq ▸ hs) hb, vbs_flat h.before.vbs hs hb]
  exact blockStatus_congr (fun _ => hac) fun h0 h1 x hx hcode i hi =>
    h.read_eq hs hb hi (hne ⟨h0, h1, x, hx, hcode⟩)

/-- While `ACT` stays, only the edited block can change its status, and only if it is checked. -/
theorem vbs_getElem?_eq (h : EditedIn s u sec blk) (hact : u.act = s.act) {n : Nat}
    (hne : n = flat sec blk → ¬ Checked s.act sec blk) : u.vbs[n]? = s.vbs[n]? := by
  by_cases hn : n < nblocks s.len.toNat
  · obtain ⟨hs, hb, hflat⟩ := addr_legal h.before.legalLen hn
    have hnot : Checked s.act (addr n).1 (addr n).2 →
        ¬ ((addr n).1 = sec ∧ (addr n).2 = blk) := by
      rintro hchk ⟨hsec, hblk⟩
      rw [hsec, hblk] at hchk hflat
      exact hne hflat.symm hchk
    rw [← hflat]
    exact h.vbs_flat_eq hs hb (fun _ => by rw [hact]) hnot
  · have hlen := (vbsTable_eq_some.1 h.before.vbs).1
    have hlen' := (vbsTable_eq_some.1 h.after.vbs).1
    rw [h.len_eq] at hlen'
    rw [List.getElem?_eq_none (by omega), List.getElem?_eq_none (by omega)]

/-- An edit of a block that is not checked leaves `VBS` where it leaves `ACT`. -/
theorem vbs_eq (h : EditedIn s u sec blk) (hact : u.act = s.act)
    (hne : ¬ Checked s.act sec blk) : u.vbs = s.vbs :=
  List.ext_getElem? fun _ => h.vbs_getElem?_eq hact fun _ => hne

end EditedIn

/-! ### The table entries an EDITACB changes -/

/-- A legal EDITACB edits the trailer of its sector, encoding its pair in the access region. -/
theorem exec_editacb_edits {s : State} {sec : BitVec 6} {blk : BitVec 4} {pos : BitVec 2}
    {j : Fin 3} (bit : Bool) (hj : posOf pos = some j) (hp : s.payload = [])
    (hl : LegalAt s sec blk) (hc : s.Coherent) :
    ∃ u r A, exec (.editacb sec blk pos bit) s = .next (answer okCode r [] u) ∧
      EditedIn s u sec.toNat (tb sec.toNat) ∧ A.length = 4 ∧ regionOf s.img sec.toNat = some A ∧
      regionOf u.img sec.toNat = some (acenc chip.acmap A (slotOf sec.toNat blk.toNat) j bit) := by
  obtain ⟨img, u, A, B, ac, hi, -, hcu, rfl, hlen, -, -, -, -, hA, hAl, hB, rfl, -, -, -, he⟩ :=
    editacb_effect bit hj hp hl hc
  refine ⟨u, _, A, exec_of_effect he,
    ⟨hc, hcu, hlen, hl.sec_lt, tb_lt _, fun c hne => ?_⟩, hAl, hA, hB⟩
  obtain rfl | rfl := accessBitEdit_read_ne hi hne
  · exact ⟨6 + _, by omega, Nat.add_assoc _ _ _⟩
  · exact ⟨6 + _, by omega, Nat.add_assoc _ _ _⟩

/-- A block outside the slot that is encoded keeps its condition (spec/40_codec.md R117 c). -/
theorem EditedIn.acOf_eq_of_slot_ne {s u : State} {sec : Nat} (h : EditedIn s u sec (tb sec))
    {A : List Byte} {k : Fin 4} {j : Fin 3} {bit : Bool} (hAl : A.length = 4)
    (hA : regionOf s.img sec = some A)
    (hB : regionOf u.img sec = some (acenc chip.acmap A k j bit)) {s' b' : Nat}
    (hne : ¬ (s' = sec ∧ slotOf s' b' = k)) : acOf u.act s' b' = acOf s.act s' b' := by
  by_cases hs : s' = sec
  · subst hs
    rw [acOf_actTable h.after.act (h.len_eq ▸ h.sec_lt), acOf_actTable h.before.act h.sec_lt, hA, hB]
    exact congrArg some (acdec_acenc_other chip_wf hAl k j bit fun e => hne ⟨rfl, e⟩)
  · exact acOf_congr (h.act_getElem?_of_ne fun e => absurd e hs)

/-- Settles O25: the blocks of a slot share its entry, and every other entry stays. -/
theorem editacbChangesOnlyItsSlot : Obligations.EditacbChangesOnlyItsSlot := by
  intro s sec blk pos bit hp hl hc hpos
  obtain ⟨j, hj, -⟩ := posOf_of_ne hpos
  obtain ⟨u, r, A, hx, hu, hAl, hA, hB⟩ := exec_editacb_edits bit hj hp hl hc
  refine ⟨_, hx, fun s' b' hs hb => ⟨?_, fun hne => ?_⟩⟩
  · rintro ⟨rfl, hslot⟩
    exact acOf_of_slotOf_eq hslot
  · have hac := hu.acOf_eq_of_slot_ne hAl hA hB hne
    refine ⟨hac, hu.vbs_flat_eq hs hb (fun _ => hac) fun hchk ⟨hsec, htb⟩ => ?_⟩
    exact hchk.not_trailer (hsec ▸ htb)

/-! ### The table entries an EDITNIB changes -/

/-- A legal EDITNIB edits its block. -/
theorem exec_editnib_edits {s : State} {sec : BitVec 6} {blk : BitVec 4} {nib : BitVec 5}
    (val : BitVec 4) (hp : s.payload = []) (hl : LegalAt s sec blk) (hc : s.Coherent)
    (hn : ¬ (sec = 0 ∧ blk = 0 ∧ (nib = 8 ∨ nib = 9))) :
    ∃ img u, nibbleEdit s.img sec.toNat blk.toNat nib.toNat val = some img ∧ u.img = img ∧
      exec (.editnib sec blk nib val) s = .next (answer okCode 0#32 [] u) ∧
      EditedIn s u sec.toNat blk.toNat := by
  obtain ⟨img, u, hi, -, hcu, rfl, hlen, -, -, -, -, he⟩ :=
    editnib_effect val hp hl (Bool.eq_false_iff.2 (mt isBccNibble_toNat_iff.1 hn)) hc
  refine ⟨_, u, hi, rfl, exec_of_effect he, hc, hcu, hlen, hl.sec_lt, hl.blk_lt, fun c hne => ?_⟩
  obtain rfl | ⟨hs, hb, -, rfl⟩ := nibbleEdit_read_ne hi hne
  · exact ⟨nib.toNat / 2, by omega, rfl⟩
  · exact ⟨4, by decide, by rw [hs, hb]; rfl⟩

/-- The bit of a region is read from one of its bytes. -/
theorem getbit_congr {A B : List Byte} {p : Fin 32} (h : A[p.val / 8]? = B[p.val / 8]?) :
    getbit A p = getbit B p := by
  simp only [getbit, List.getD_eq_getElem?_getD, h]

/-- With the default table the row of a sector is read from the first three bytes of its region
(log entry 1). -/
theorem acRow_chip_congr {A B : List Byte} (h : ∀ i < 3, A[i]? = B[i]?) :
    acRow chip.acmap A = acRow chip.acmap B := by
  have hd (k : Fin 4) (j : Fin 3) :
      getbit A (chip.acmap k j).direct = getbit B (chip.acmap k j).direct :=
    getbit_congr (h _ (Nat.lt_succ_of_le (chip_pos_lt k j).1))
  have hi (k : Fin 4) (j : Fin 3) :
      getbit A (chip.acmap k j).inverted = getbit B (chip.acmap k j).inverted :=
    getbit_congr (h _ (Nat.lt_succ_of_le (chip_pos_lt k j).2))
  simp only [acRow, acdec, hd, hi]

theorem tb_ne_zero (s : Nat) : tb s ≠ 0 := by unfold tb nblk; split <;> decide

/-- The nibbles 0 to 11 and 18 to 31 of a trailer hold no access bit (log entry 1). -/
theorem EditedIn.act_eq_of_nibble {s u : State} {sec blk nib : Nat} {val : BitVec 4}
    {img : Memory} (h : EditedIn s u sec blk) (hi : nibbleEdit s.img sec blk nib val = some img)
    (himg : u.img = img) (hblk : blk = tb sec) (hnib : ¬ (12 ≤ nib ∧ nib ≤ 17)) :
    u.act = s.act := by
  subst hblk himg
  refine List.ext_getElem? fun s' => ?_
  by_cases hs : s' = sec
  · subst hs
    refine h.act_getElem?_eq fun hs => ?_
    obtain ⟨A, hA, -⟩ := regionOf_of_exact h.before.img_exact hs
    obtain ⟨B, hB, -⟩ := regionOf_of_exact h.after.img_exact (h.len_eq ▸ hs)
    rw [hA, hB, Option.map_some, Option.map_some, acRow_chip_congr fun i hi3 => ?_]
    rw [← memRead_getElem hB (by omega), ← memRead_getElem hA (by omega)]
    by_contra hne
    obtain he | ⟨-, h0, -⟩ := nibbleEdit_read_ne hi hne
    · unfold accessOff nibOff at he; omega
    · exact tb_ne_zero _ h0
  · exact h.act_getElem?_of_ne fun e => absurd e hs

/-- Settles O27: a trailer's access bits, a data block, and the bytes no entry is read from. -/
theorem editnibChangesOnlyNamedTableEntries : Obligations.EditnibChangesOnlyNamedTableEntries := by
  intro s sec blk nib val hp hl hc hn
  obtain ⟨img, u, hi, himg, hx, hu⟩ := exec_editnib_edits val hp hl hc hn
  refine ⟨_, hx, fun _ => ⟨fun s' hs => ?_, fun s' b' hs hb hne => ?_⟩, ?_, ?_⟩
  · exact hu.act_getElem?_of_ne fun e => absurd e hs
  · exact hu.vbs_flat_eq hs hb (fun _ => acOf_congr (hu.act_getElem?_of_ne fun e => absurd e hne))
      fun _ ⟨e, _⟩ => hne e
  · rintro ⟨htb, -⟩
    have hact := hu.act_eq htb
    refine ⟨hact, fun n hne => hu.vbs_getElem?_eq hact fun e => absurd e hne, fun hcode => ?_⟩
    exact hu.vbs_eq hact fun hchk => hchk.eligible.elim fun x ⟨hx, hmem⟩ => hcode x hx hmem
  · rintro (⟨rfl, rfl⟩ | ⟨htb, hnib⟩)
    · have hact := hu.act_eq (tb_ne_zero 0).symm
      exact ⟨hact, hu.vbs_eq hact fun hchk => hchk.not_manufacturer ⟨rfl, rfl⟩⟩
    · have hact := hu.act_eq_of_nibble hi himg htb hnib
      exact ⟨hact, hu.vbs_eq hact fun hchk => hchk.not_trailer htb⟩

/-! ### Legal commands complete -/

/-- A legal command of a coherent state has its effect (spec/43_cardimage.md R178). -/
theorem exists_effect_of_legal {i : Instr} {s : State} (hw : i.WellFormed)
    (hp : s.payload.length = i.paylen) (hc : s.Coherent) (hl : OperandsLegal s i) :
    ∃ t, Effect s i t := by
  have hnil : i.paylen = 0 → s.payload = [] := fun h0 => List.length_eq_zero_iff.1 (hp.trans h0)
  cases i with
  | parse len =>
    obtain ⟨u, hu, -⟩ := exec_parse_loads hp hl
    exact ⟨_, hp, (legalSize_iff _).2 hl, u, hu, rfl⟩
  | serialize =>
    obtain ⟨q, hq⟩ := image_some hc
    exact ⟨_, hnil rfl, hl, q, hq, rfl⟩
  | editnib sec blk nib val =>
    obtain ⟨hat, hn⟩ := hl
    obtain ⟨_, _, -, -, -, -, -, -, -, -, -, he⟩ :=
      editnib_effect val (hnil rfl) hat (Bool.eq_false_iff.2 (mt isBccNibble_toNat_iff.1 hn)) hc
    exact ⟨_, he⟩
  | editacb sec blk pos bit =>
    obtain ⟨j, hj, -⟩ := posOf_of_ne (pos := pos) (by simpa [Instr.WellFormed, Instr.wf] using hw)
    obtain ⟨_, _, _, _, _, -, -, -, -, -, -, -, -, -, -, -, -, -, -, -, -, he⟩ :=
      editacb_effect bit hj (hnil rfl) hl hc
    exact ⟨_, he⟩
  | rdblk sec blk =>
    obtain ⟨q, hq⟩ := block_some hc hl.sec_lt hl.blk_lt
    exact ⟨_, hnil rfl, hl, q, hq, rfl⟩
  | rdac sec blk =>
    obtain ⟨ac, hac⟩ := acOf_some hc hl.sec_lt (b := blk.toNat)
    exact ⟨_, hnil rfl, hl, ac, hac, rfl⟩
  | rdvbs sec blk =>
    obtain ⟨w, hvbs⟩ := vbs_some hc hl.sec_lt hl.blk_lt
    exact ⟨_, hnil rfl, hl, w, hvbs, rfl⟩
  | rdclass sec blk => exact ⟨_, hnil rfl, hl, rfl⟩
  | rdrow row => exact ⟨_, hnil rfl, hl.1, hl.2, rfl⟩
  | rdstat => exact ⟨_, hnil rfl, rfl⟩
  | acdec slot => exact ⟨_, hp, rfl⟩
  | acenc slot pos bit =>
    obtain ⟨j, hj, -⟩ := posOf_of_ne (pos := pos) (by simpa [Instr.WellFormed, Instr.wf] using hw)
    exact ⟨_, hp, j, hj, rfl⟩
  | vbchk => exact ⟨_, hp, rfl⟩
  | bcc len => exact ⟨_, hp, rfl⟩

/-- Settles O34: a legal command has its effect, which ends in a response of status `OK`. -/
theorem legalCommandCompletes : Obligations.LegalCommandCompletes := by
  intro i s hw hp hc hl
  obtain ⟨t, he⟩ := exists_effect_of_legal hw (hp.trans (payloadLength_eq_paylen i)) hc hl
  obtain ⟨-, -, r, hr, h0⟩ := effect_interface he
  exact ⟨t, r, exec_of_effect he, hr, h0, effect_len he⟩

/-! ### The bytes SERIALIZE returns after a PARSE and commands between -/

/-- Some command, answered `OK`, may write the byte at `a`; `rs` are the responses to `cmds`
(spec/20_memory.md R62). -/
def WrittenBy (cmds : List (Word × List Byte)) (rs : List Response) (a : Nat) : Prop :=
  ∃ (n : Nat) (c : Word × List Byte) (i : Instr) (r : Response), cmds[n]? = some c ∧
    decode c.1 = .ok i ∧ MayWrite i a ∧ rs[n]? = some r ∧ r.status = 0

theorem WrittenBy.cons {cmds : List (Word × List Byte)} {rs : List Response} {a : Nat}
    (h : WrittenBy cmds rs a) (c : Word × List Byte) (r : Response) :
    WrittenBy (c :: cmds) (r :: rs) a := by
  obtain ⟨n, c', i, r', hc, hd, hm, hr, h0⟩ := h
  exact ⟨n + 1, c', i, r', hc, hd, hm, hr, h0⟩

/-- `v` is what the block comes to from `u` once it has answered `cmds` by `rs`, none of them a
successful PARSE: the length is kept, and each byte that differs is one a command may write. -/
structure Answered (u v : State) (cmds : List (Word × List Byte)) (tail : List HostInput)
    (rs : List Response) : Prop where
  coherent  : v.Coherent
  len_eq    : v.len = u.len
  inbox_eq  : v.inbox = tail
  outbox_eq : v.outbox = u.outbox ++ rs
  length_eq : rs.length = cmds.length
  written   : ∀ a, Memory.read v.img a ≠ Memory.read u.img a → WrittenBy cmds rs a

theorem Answered.nil {u : State} (hc : u.Coherent) : Answered u u [] u.inbox [] :=
  ⟨hc, rfl, rfl, (List.append_nil _).symm, rfl, fun _ h => absurd rfl h⟩

theorem Answered.cons {u v w : State} {c : Word × List Byte} {cmds : List (Word × List Byte)}
    {rest tail : List HostInput} {r : Response} {rs : List Response}
    (h : Answered u v [c] rest [r]) (h' : Answered v w cmds tail rs) :
    Answered u w (c :: cmds) tail (r :: rs) := by
  refine ⟨h'.coherent, h'.len_eq.trans h.len_eq, h'.inbox_eq, ?_, by simp [h'.length_eq],
    fun a hne => ?_⟩
  · rw [h'.outbox_eq, h.outbox_eq, List.append_assoc, List.singleton_append]
  · by_cases hv : Memory.read v.img a = Memory.read u.img a
    · exact (h'.written a (hv ▸ hne)).cons c r
    · obtain ⟨_ | n, c', i, r', hc, hd, hm, hr, h0⟩ := h.written a hv
      · exact ⟨0, c', i, r', hc, hd, hm, hr, h0⟩
      · cases hc

/-- One command that is no successful PARSE: refused with its error, or run. -/
theorem step_answered {u : State} {c : Word × List Byte} {rest : List HostInput} (hc : u.Coherent)
    (hno : ¬ ParseSucceeds c) (hi : u.inbox = .command c.1 c.2 :: rest) :
    ∃ v r, step u = .next v ∧ Answered u v [c] rest [r] := by
  have htaken := takeCommand_coherent hc c.2 rest
  have refused (e : ErrorStatus) : Answered u (answer e.code 0#32 [] (takeCommand c.2 rest u)) [c]
      rest [⟨e.code, 0#32, []⟩] :=
    ⟨answer_coherent htaken _ _ _, rfl, rfl, rfl, rfl, fun _ h => absurd rfl h⟩
  rw [step_command hi]
  cases hd : decode c.1 with
  | error e => exact ⟨_, _, rfl, refused .illegal⟩
  | ok i =>
    obtain ⟨v, hx⟩ := exec_total i htaken
    obtain ⟨hin, -, r, hr, ⟨h0, he⟩ | ⟨e, -, -, -, rfl⟩⟩ := exec_response hx
    · have hparse : ∀ len, i ≠ .parse len := by
        rintro len rfl
        exact hno ⟨len, hd, he.1, (legalSize_iff _).1 he.2.1⟩
      exact ⟨v, r, hx, effect_coherent htaken he, (effect_len he hparse).trans rfl, hin, hr, rfl,
        fun a hne => ⟨0, c, i, r, rfl, hd, mayWrite_of_effect he hne, rfl, h0⟩⟩
    · exact ⟨_, _, hx, refused e⟩

/-- The commands between, one step each, by induction on their list. -/
theorem run_answered {cmds : List (Word × List Byte)} {tail : List HostInput} {u : State}
    (hc : u.Coherent) (hno : ∀ c ∈ cmds, ¬ ParseSucceeds c)
    (hi : u.inbox = (cmds.map fun c => HostInput.command c.1 c.2) ++ tail) :
    ∃ v rs, (∀ l, Host.Core.run core (cmds.length + l) u = Host.Core.run core l v) ∧
      Answered u v cmds tail rs := by
  induction cmds generalizing u with
  | nil =>
    obtain rfl : u.inbox = tail := hi
    exact ⟨u, [], fun l => by rw [List.length_nil, Nat.zero_add], Answered.nil hc⟩
  | cons c cmds ih =>
    obtain ⟨v, r, hstep, hv⟩ := step_answered hc (hno c List.mem_cons_self) hi
    obtain ⟨w, rs, hrun, hw⟩ :=
      ih hv.coherent (fun c' h => hno c' (List.mem_cons_of_mem c h)) hv.inbox_eq
    refine ⟨w, r :: rs, fun l => ?_, hv.cons hw⟩
    rw [List.length_cons, Nat.add_right_comm, run_succ hstep, hrun]

/-- A PARSE of a legal size at the head of the queue, whatever the state. -/
theorem step_parse {s : State} {len : BitVec 16} {X : List Byte} {rest : List HostInput}
    (hX : X.length = len.toNat) (hz : len.toNat = 320 ∨ len.toNat = 1024 ∨ len.toNat = 4096)
    (hi : s.inbox = .command (0x1000#16 ++ len) X :: rest) :
    ∃ u, step s = .next u ∧ u.Coherent ∧ (∀ a, Memory.read u.img a = X[a]?) ∧
      u.len.toNat = len.toNat ∧ u.inbox = rest ∧
      u.outbox = s.outbox ++ [⟨0#4, len.setWidth 32, []⟩] := by
  obtain ⟨u, -, hc, himg, hlen, -, hin, hout, hx⟩ :=
    exec_parse_loads (s := takeCommand X rest s) hX hz
  have hd : decode (0x1000#16 ++ len) = .ok (.parse len) := decode_of_encode_eq rfl rfl
  refine ⟨answer okCode (len.setWidth 32) [] u, ?_, answer_coherent hc _ _ _, fun a => ?_, hlen,
    hin, ?_⟩
  · rw [step_command hi, hd]
    exact hx
  · rw [answer_img, himg, read_imageOf_zero, takeCommand_payload]
  · rw [answer_outbox, hout, takeCommand_outbox]; rfl

/-- A SERIALIZE at the head of the queue. -/
theorem step_serialize {v : State} {rest : List HostInput} (hc : v.Coherent) (hl : v.len ≠ 0#13)
    (hi : v.inbox = .command 0x20000000#32 [] :: rest) :
    ∃ t q, step v = .next t ∧ memRead v.img 0 v.len.toNat = some q ∧
      t.outbox = v.outbox ++ [⟨0#4, v.len.setWidth 32, q⟩] := by
  obtain ⟨q, hq, hx⟩ := exec_serialize_returns (s := takeCommand [] rest v) rfl hl
    (takeCommand_coherent hc [] rest)
  have hd : decode 0x20000000#32 = .ok .serialize := decode_of_encode_eq rfl rfl
  exact ⟨_, q, by rw [step_command hi, hd]; exact hx, hq, rfl⟩

/-- Bytes read from below a length, compared with a list of that length at every address. -/
theorem read_ne_of_getElem?_ne {m m' : Memory} {n : Nat} {q X : List Byte}
    (hq : memRead m 0 n = some q) (hX : X.length = n) (hread : ∀ a, Memory.read m' a = X[a]?)
    {a : Nat} (hne : q[a]? ≠ X[a]?) : Memory.read m a ≠ Memory.read m' a := by
  have hlen := memRead_length hq
  have ha : a < n := by
    by_contra hge
    exact hne (by rw [List.getElem?_eq_none (by omega), List.getElem?_eq_none (by omega)])
  rw [hread, ← Nat.zero_add a, memRead_getElem hq ha, Nat.zero_add]
  exact hne

/-- Settles O22: the load, the commands between by induction, and the bytes read back. -/
theorem serializedBytesDifferOnlyByEdits : Obligations.SerializedBytesDifferOnlyByEdits := by
  intro s len X cmds rest hX hz hno hi
  obtain ⟨u, hparse, hcu, hread, hlen, hin, hout⟩ := step_parse hX hz hi
  obtain ⟨v, rs, hrun, hv⟩ := run_answered hcu hno hin
  have hvlen : v.len.toNat = len.toNat := by rw [hv.len_eq, hlen]
  obtain ⟨t, q, hser, hq, hout'⟩ := step_serialize hv.coherent
    (fun e => by rw [e, BitVec.toNat_ofNat] at hvlen; omega) hv.inbox_eq
  have hword : v.len.setWidth 32 = len.setWidth 32 := by
    apply BitVec.eq_of_toNat_eq
    rw [BitVec.toNat_setWidth, BitVec.toNat_setWidth, hvlen]
  rw [hvlen] at hq
  rw [hv.outbox_eq, hout, hword] at hout'
  have hwritten : ∀ a, q[a]? ≠ X[a]? → WrittenBy cmds rs a := fun a hne =>
    hv.written a (read_ne_of_getElem?_ne hq hX hread hne)
  refine ⟨t, q, ?_, by rw [hout', List.getLast?_concat], memRead_length hq, fun a hne => ?_, ?_⟩
  · rw [run_succ hparse, hrun, run_succ hser]
    rfl
  · obtain ⟨n, c, i, r, hcmd, hd, hm, hr, h0⟩ := hwritten a hne
    refine ⟨n, c, i, r, hcmd, hd, hm, ?_, h0⟩
    have hn : n < rs.length := (List.getElem?_eq_some_iff.1 hr).1
    rw [hout', List.append_assoc, List.getElem?_append_right (by simp)]
    simp [List.getElem?_append_left hn, hr]
  · rintro rfl
    refine List.ext_getElem? fun a => ?_
    by_contra hne
    obtain ⟨n, c, -, -, hcmd, -⟩ := hwritten a hne
    cases hcmd

end Sys2Proof.Machine
end

section
/-! The addressing family (spec/44_addressing.md): the row map and its laws, the fields of the
result words of RDROW and RDSTAT, the rules of the six read commands, and that the address of a row
is always a legal one. -/

namespace Sys2Proof.Machine

open Sys2Proof.Spec

/-! ### The class of a block -/

theorem blockClass_eq_manufacturer_iff {s b : Nat} :
    blockClass s b = .manufacturer ↔ s = 0 ∧ b = 0 := by
  unfold blockClass
  split
  · next h => exact iff_of_true rfl h
  · next h => split <;> exact iff_of_false nofun h

/-- Block 0 is no trailer, so the manufacturer test takes none from the trailers
(spec/10_state.md R29). -/
theorem blockClass_eq_sectorTrailer_iff {s b : Nat} :
    blockClass s b = .sectorTrailer ↔ b = tb s := by
  unfold blockClass
  split
  · next h => exact iff_of_false nofun fun e => tb_ne_zero s (e.symm.trans h.2)
  · split
    · next h => exact iff_of_true rfl h
    · next h => exact iff_of_false nofun h

theorem tb_eq (s : Nat) : tb s = if s < 32 then 3 else 15 := by
  unfold tb nblk
  split <;> rfl

/-! ### The class of a row -/

/-- The class of the block at a row (spec/44_addressing.md R199). -/
def rowClass (n : Nat) : BlockClass := blockClass (addr n).1 (addr n).2

theorem rowClass_flat {len s b : Nat} (hs : s < nsec len) (hb : b < nblk s) :
    rowClass (flat s b) = blockClass s b := by
  rw [rowClass, addr_flat hs hb]

/-- Only row 0 lies at block 0 of sector 0 (spec/44_addressing.md R200 b). -/
theorem rowClass_eq_manufacturer_iff {n : Nat} : rowClass n = .manufacturer ↔ n = 0 := by
  rw [rowClass, blockClass_eq_manufacturer_iff, addr]
  split <;> omega

/-- The trailer rows are the last rows of the sectors (spec/44_addressing.md R200 c). -/
theorem rowClass_eq_sectorTrailer_iff {len n : Nat} (hl : LegalLen len) (hn : n < nblocks len) :
    rowClass n = .sectorTrailer ↔ ∃ s < nsec len, n = flat s (tb s) := by
  constructor
  · intro h
    obtain ⟨hs, -, hflat⟩ := addr_legal hl hn
    exact ⟨_, hs, by rw [← blockClass_eq_sectorTrailer_iff.1 h, hflat]⟩
  · rintro ⟨s, hs, rfl⟩
    rw [rowClass_flat hs (tb_lt s), blockClass_eq_sectorTrailer_iff]

theorem flat_tb (s : Nat) :
    flat s (tb s) = if s < 32 then 4 * s + 3 else 128 + 16 * (s - 32) + 15 := by
  rw [flat_eq, tb_eq]
  split <;> rfl

/-! ### How many rows of each class there are -/

/-- The number of rows of a class among the first `n`. -/
def classCount (c : BlockClass) (n : Nat) : Nat := (List.range n).countP fun k => rowClass k == c

theorem classCount_succ (c : BlockClass) (n : Nat) :
    classCount c (n + 1) = classCount c n + if rowClass n = c then 1 else 0 := by
  simp only [classCount, List.range_succ, List.countP_append, List.countP_singleton, beq_iff_eq]

/-- The rows of a sector before its last one are no trailers. -/
theorem trailerCount_in_sector {len s : Nat} (hs : s < nsec len) {k : Nat} (hk : k ≤ tb s) :
    classCount .sectorTrailer (first s + k) = classCount .sectorTrailer (first s) := by
  induction k with
  | zero => rfl
  | succ k ih =>
    have hclass : rowClass (first s + k) ≠ .sectorTrailer := by
      rw [← flat, rowClass_flat hs (hk.trans (tb_lt s).le), Ne, blockClass_eq_sectorTrailer_iff]
      omega
    rw [← Nat.add_assoc, classCount_succ, if_neg hclass, Nat.add_zero, ih (by omega)]

theorem first_succ (s : Nat) : first (s + 1) = flat s (tb s) + 1 := by
  rw [flat_tb, first]
  split <;> split <;> omega

/-- Each sector has one trailer: before sector `s` there are `s`. -/
theorem trailerCount_first {len s : Nat} (hs : s ≤ nsec len) :
    classCount .sectorTrailer (first s) = s := by
  induction s with
  | zero => rfl
  | succ s ih =>
    have hclass : rowClass (flat s (tb s)) = .sectorTrailer := by
      rw [rowClass_flat hs (tb_lt s), blockClass_eq_sectorTrailer_iff]
    rw [first_succ, classCount_succ, if_pos hclass, flat, trailerCount_in_sector hs le_rfl,
      ih (Nat.le_of_succ_le hs)]

/-- The rows of the image are those before the sector it no longer has. -/
theorem first_nsec {len : Nat} (hl : LegalLen len) : first (nsec len) = nblocks len := by
  obtain rfl | rfl | rfl | rfl := hl <;> rfl

theorem trailerCount_nblocks {len : Nat} (hl : LegalLen len) :
    classCount .sectorTrailer (nblocks len) = nsec len := by
  rw [← first_nsec hl, trailerCount_first le_rfl]

/-- Each row but row 0 is a trailer or data. -/
theorem dataCount_add_trailerCount (n : Nat) :
    classCount .data (n + 1) + classCount .sectorTrailer (n + 1) = n := by
  induction n with
  | zero => rfl
  | succ n ih =>
    have hmanufacturer : rowClass (n + 1) ≠ .manufacturer :=
      mt rowClass_eq_manufacturer_iff.1 (Nat.succ_ne_zero n)
    rw [classCount_succ .data, classCount_succ .sectorTrailer]
    cases hclass : rowClass (n + 1) with
    | manufacturer => exact absurd hclass hmanufacturer
    | data => simp only [if_true, reduceCtorEq, if_false]; omega
    | sectorTrailer => simp only [if_true, reduceCtorEq, if_false]; omega

/-- All rows but row 0 and the trailers are data (spec/44_addressing.md R200 b). -/
theorem dataCount_nblocks {len : Nat} (hl : LegalLen len) (hpos : 0 < nblocks len) :
    classCount .data (nblocks len) + nsec len + 1 = nblocks len := by
  have hsum := dataCount_add_trailerCount (nblocks len - 1)
  rw [Nat.sub_add_cancel hpos, trailerCount_nblocks hl] at hsum
  omega

/-- Settles O56: `flat` and `addr` are inverse, the class of each row, and the counts sector by
sector. -/
theorem rowMapLaws : Obligations.RowMapLaws := by
  intro len hlen
  have hl : LegalLen len := .inr hlen
  refine ⟨fun n hn => addr_legal hl hn, fun s b hs hb => ⟨flat_lt hs hb, addr_flat hs hb⟩,
    fun n _ => rowClass_eq_manufacturer_iff, fun n hn => ?_, ?_, trailerCount_nblocks hl,
    fun h => h ▸ rfl⟩
  · rw [← rowClass, rowClass_eq_sectorTrailer_iff hl hn]
    simp only [flat_tb]
  · change classCount .data (nblocks len) = _
    have hdata : 0 < nblocks len → classCount .data (nblocks len) + nsec len + 1 = nblocks len :=
      dataCount_nblocks hl
    generalize classCount .data (nblocks len) = d at hdata ⊢
    obtain rfl | rfl | rfl := hlen <;> simpa [nblocks, nsec] using hdata

/-! ### Illegal headers -/

/-- A command whose row fixes a field of the header at 0 answers a header with another value there
`ERR_ILLEGAL` (spec/60_exceptions.md R211). -/
theorem answersIllegal_of_field {r : HeaderRow} (hr : r ∈ headerTable) {o : BitVec 4}
    (ho : r.pattern.extractLsb' 28 4 = o) {lo n : Nat}
    (hmask : ∀ i < n, r.mask.getLsbD (lo + i) = true)
    (hpat : ∀ i < n, r.pattern.getLsbD (lo + i) = false) :
    AnswersIllegal o fun h => h.extractLsb' lo n ≠ 0 :=
  answersIllegal_of_row hr ho fun _ ⟨hm, _⟩ hb => hb (field_zero_of_match hm lo n hmask hpat)

/-! ### RDBLK, RDAC, RDVBS and RDCLASS -/

/-- Settles O37: the row of RDBLK, its errors in their order, and the bytes of the block. -/
theorem rdblkFollowsRule : Obligations.RdblkFollowsRule := by
  refine ⟨answersIllegal_of_field (r := headerTable[4]) (List.getElem_mem _) (by decide) (by decide)
    (by decide), fun s sec blk => ⟨imageErrors_of_exec rfl rfl, fun hp hl hc => ?_⟩⟩
  obtain ⟨B, hB⟩ := block_some hc hl.sec_lt hl.blk_lt
  obtain ⟨hlen, hbytes⟩ := memRead_eq_some.1 hB
  exact ⟨B, hlen, hbytes, exec_of_effect ⟨hp, hl, B, hB, rfl⟩⟩

/-- Settles O38: the row of RDAC, its errors in their order, and the decode of the block's slot. -/
theorem rdacFollowsRule : Obligations.RdacFollowsRule := by
  refine ⟨answersIllegal_of_field (r := headerTable[5]) (List.getElem_mem _) (by decide) (by decide)
    (by decide), fun s sec blk => ⟨imageErrors_of_exec rfl rfl, fun hp hl hc => ?_⟩⟩
  obtain ⟨A, hA⟩ := exists_regionHeld hp hl hc
  exact ⟨A, _, hA.region, hA.acOf_eq, rfl,
    exec_of_effect ⟨hp, hl, _, hA.acOf_eq, by rw [ac4_setWidth]; rfl⟩⟩

theorem vbCode_eq (w : VbStatus) : vbCode w = if w = .warning then 1 else 0 := by
  cases w <;> rfl

/-- Settles O39: the row of RDVBS, its errors in their order, and the entry of `VBS`, which is the
status of the block. -/
theorem rdvbsFollowsRule : Obligations.RdvbsFollowsRule := by
  refine ⟨answersIllegal_of_field (r := headerTable[6]) (List.getElem_mem _) (by decide) (by decide)
    (by decide), fun s sec blk => ⟨imageErrors_of_exec rfl rfl, fun hp hl hc => ?_⟩⟩
  obtain ⟨w, hw⟩ := vbs_some hc hl.sec_lt hl.blk_lt
  have hstatus : blockStatus chip s.img s.act sec.toNat blk.toNat = some w :=
    (vbs_flat hc.vbs hl.sec_lt hl.blk_lt).symm.trans hw
  have hok : blockStatus chip s.img s.act sec.toNat blk.toNat = some .ok → w = .ok := fun h =>
    Option.some.inj (hstatus.symm.trans h)
  refine ⟨w, hw, ?_, fun hac => hok (blockStatus_of_not_eligible _ hac nofun),
    fun c hac hx => hok (blockStatus_of_not_eligible _ hac fun _ e => AccessCond.valid.inj e ▸ hx),
    exec_of_effect ⟨hp, hl, w, hw, by rw [vbCode_eq]; rfl⟩⟩
  rintro (⟨rfl, rfl⟩ | htb)
  · exact hok (blockStatus_manufacturer _ _ _ ⟨rfl, rfl⟩)
  · exact hok (blockStatus_trailer _ _ _ htb)

/-- The class code of a block from its address (spec/30_encoding.md R89, spec/10_state.md R29). -/
theorem classCode_blockClass (s b : Nat) : classCode (blockClass s b) =
    if s = 0 ∧ b = 0 then 1 else if b = (if s < 32 then 3 else 15) then 2 else 0 := by
  rw [← tb_eq, blockClass]
  split
  · rfl
  · split <;> rfl

/-- Settles O40: the row of RDCLASS, its errors in their order, and the class of the block. -/
theorem rdclassFollowsRule : Obligations.RdclassFollowsRule := by
  refine ⟨answersIllegal_of_field (r := headerTable[7]) (List.getElem_mem _) (by decide) (by decide)
    (by decide), fun s sec blk => ⟨imageErrors_of_exec rfl rfl, fun hp hl => ?_⟩⟩
  refine exec_of_effect ⟨hp, hl, ?_⟩
  rw [classCode_blockClass, answer_eq_replied]
  simp only [← BitVec.toNat_inj]
  rfl

/-! ### The fields of a result word -/

/-- A value shifted past everything that stands below it. -/
theorem toNat_shiftLeft_or {v k : Nat} {y : Word} (hv : 2 ^ k * v < 2 ^ 32) (hy : y.toNat < 2 ^ k) :
    (BitVec.ofNat 32 v <<< k ||| y).toNat = 2 ^ k * v + y.toNat := by
  have hle : v ≤ 2 ^ k * v := Nat.le_mul_of_pos_left v (Nat.two_pow_pos k)
  rw [BitVec.toNat_or, BitVec.toNat_shiftLeft, BitVec.toNat_ofNat,
    Nat.mod_eq_of_lt (hle.trans_lt hv), Nat.shiftLeft_eq, Nat.mul_comm, Nat.mod_eq_of_lt hv,
    Nat.two_pow_add_eq_or_of_lt hy]

/-- A field read back from a word that holds `v` there, `low` below and `high` above. -/
theorem toNat_field {r : Word} {lo n v : Nat} (high low : Nat)
    (h : r.toNat = 2 ^ lo * (2 ^ n * high + v) + low) (hlow : low < 2 ^ lo) (hv : v < 2 ^ n) :
    (r.extractLsb' lo n).toNat = v := by
  rw [BitVec.extractLsb'_toNat, Nat.shiftRight_eq_div_pow, h,
    Nat.mul_add_div (Nat.two_pow_pos lo), Nat.div_eq_of_lt hlow, Nat.add_zero,
    Nat.mul_add_mod, Nat.mod_eq_of_lt hv]

/-- A field above all that a word holds. -/
theorem field_eq_zero {r : Word} {lo n : Nat} (h : r.toNat < 2 ^ lo) : r.extractLsb' lo n = 0 := by
  have hzero : (r.extractLsb' lo n).toNat = 0 := by
    refine toNat_field 0 r.toNat ?_ h (Nat.two_pow_pos n)
    rw [Nat.mul_zero, Nat.mul_zero, Nat.zero_add]
  exact BitVec.eq_of_toNat_eq (hzero.trans BitVec.toNat_zero.symm)

/-! ### RDROW -/

theorem classCode_toNat_lt (c : BlockClass) : (classCode c).toNat < 4 := by cases c <;> decide

/-- The result of RDROW as a number (spec/44_addressing.md R199). -/
theorem toNat_rowWord {s b : Nat} (hs : s < 64) (hb : b < 16) :
    (rowWord s b).toNat = 2 ^ 6 * s + (2 ^ 2 * b + (classCode (blockClass s b)).toNat) := by
  have hc := classCode_toNat_lt (blockClass s b)
  have hlow := toNat_shiftLeft_or (v := b) (k := 2) (by omega) hc
  rw [rowWord, BitVec.or_assoc, toNat_shiftLeft_or (by omega) (by omega), hlow]

section rowWord
variable {s b : Nat} (hs : s < 64) (hb : b < 16)
include hs hb

theorem rowWord_sector : ((rowWord s b).extractLsb' 6 6).toNat = s := by
  have hc := classCode_toNat_lt (blockClass s b)
  refine toNat_field 0 (2 ^ 2 * b + (classCode (blockClass s b)).toNat) ?_ (by omega) hs
  rw [toNat_rowWord hs hb, Nat.mul_zero, Nat.zero_add]

theorem rowWord_block : ((rowWord s b).extractLsb' 2 4).toNat = b := by
  refine toNat_field s (classCode (blockClass s b)).toNat ?_ (classCode_toNat_lt _) hb
  rw [toNat_rowWord hs hb]
  omega

theorem rowWord_class :
    (rowWord s b).extractLsb' 0 2 = (classCode (blockClass s b)).setWidth 2 := by
  have hc := classCode_toNat_lt (blockClass s b)
  apply BitVec.eq_of_toNat_eq
  rw [BitVec.toNat_setWidth, Nat.mod_eq_of_lt hc]
  refine toNat_field (2 ^ 4 * s + b) 0 ?_ (by decide) hc
  rw [toNat_rowWord hs hb]
  omega

theorem rowWord_high : (rowWord s b).extractLsb' 12 20 = 0 := by
  have hc := classCode_toNat_lt (blockClass s b)
  exact field_eq_zero (by rw [toNat_rowWord hs hb]; omega)

end rowWord

/-- The sector and block of a legal address fit the fields of a header and of a result
(spec/30_encoding.md R81). -/
theorem lt_of_legal_block {len s b : Nat} (hs : s < nsec len) (hb : b < nblk s) :
    s < 64 ∧ b < 16 := by
  have hsec := nsec_pos_legal hs
  obtain ⟨hn, -⟩ | ⟨hn, -⟩ := nblk_four_or s <;> omega

/-- A row outside the image is answered `ERR_ADDRESS` (spec/44_addressing.md R199). -/
theorem exec_rdrow_of_outside {s : State} {row : BitVec 16} (hp : s.payload = [])
    (hl : s.len ≠ 0#13) (hrow : nblocks s.len.toNat ≤ row.toNat) :
    exec (.rdrow row) s = .next (s.replied 3#4 0#32 []) :=
  (checkFrame_of_length (i := .rdrow row) (by rw [hp]; rfl)).trans <|
    (checkLoaded_of_loaded hl).trans (if_pos hrow)

/-- Settles O41: the row of RDROW, its errors in their order, and the fields of the result. -/
theorem rdrowFollowsRule : Obligations.RdrowFollowsRule := by
  refine ⟨answersIllegal_of_field (r := headerTable[8]) (List.getElem_mem _) (by decide) (by decide)
    (by decide), fun s row => ⟨fun hp => ?_, fun hp hl => ?_, fun hp hl hrow => ?_,
      fun hp hl hc hrow => ?_⟩⟩
  · exact checkFrame_of_length_ne (i := .rdrow row) (mt List.length_eq_zero_iff.1 hp) _
  · exact exec_of_unloaded (i := .rdrow row) rfl (by rw [hp]; rfl) hl rfl
  · exact exec_rdrow_of_outside hp hl hrow
  · obtain ⟨hsec, hblk, -⟩ := addr_legal hc.legalLen hrow
    obtain ⟨hs, hb⟩ := lt_of_legal_block hsec hblk
    refine ⟨_, exec_of_effect ⟨hp, hl, hrow, rfl⟩, rowWord_sector hs hb, rowWord_block hs hb, ?_,
      rowWord_high hs hb⟩
    rw [rowWord_class hs hb]
    cases blockClass (addr row.toNat).1 (addr row.toNat).2 <;> rfl

/-! ### RDSTAT -/

theorem nsec_le (len : Nat) : nsec len ≤ 40 := by
  unfold nsec
  split_ifs <;> decide

theorem or_reverse (a b c d : Word) : a ||| b ||| c ||| d = d ||| (c ||| (b ||| a)) := by
  rw [BitVec.or_comm a, BitVec.or_comm _ c, BitVec.or_comm _ d]

/-- The status word with its highest field first (spec/10_state.md R36). -/
theorem statusWord_eq (len : BitVec 13) (dirty : Bool) : statusWord len dirty =
    BitVec.ofNat 32 (len.toNat / 16) <<< 20 ||| (BitVec.ofNat 32 (nsec len.toNat) <<< 14 |||
      (BitVec.ofNat 32 dirty.toNat <<< 13 ||| len.setWidth 32)) := by
  have hbit : (BitVec.ofBool dirty).setWidth 32 = BitVec.ofNat 32 dirty.toNat := by
    cases dirty <;> rfl
  rw [statusWord, hbit]
  exact or_reverse _ _ _ _

/-- The status word as a number. -/
theorem toNat_statusWord (len : BitVec 13) (dirty : Bool) : (statusWord len dirty).toNat =
    2 ^ 20 * (len.toNat / 16) + (2 ^ 14 * nsec len.toNat + (2 ^ 13 * dirty.toNat + len.toNat)) := by
  have hlen := len.isLt
  have hsec := nsec_le len.toNat
  have hdirty := Bool.toNat_le dirty
  have hlow : (len.setWidth 32).toNat = len.toNat := BitVec.toNat_setWidth_of_le (by decide)
  have h13 := toNat_shiftLeft_or (v := dirty.toNat) (k := 13) (y := len.setWidth 32) (by omega)
    (by omega)
  have h14 := toNat_shiftLeft_or (v := nsec len.toNat) (k := 14) (by omega) (by rw [h13]; omega)
  rw [statusWord_eq, toNat_shiftLeft_or (by omega) (by rw [h14]; omega), h14, h13, hlow]

section statusWord
variable (len : BitVec 13) (dirty : Bool)

theorem statusWord_len : (statusWord len dirty).extractLsb' 0 13 = len := by
  apply BitVec.eq_of_toNat_eq
  refine toNat_field (2 ^ 7 * (len.toNat / 16) + 2 * nsec len.toNat + dirty.toNat) 0 ?_ (by decide)
    len.isLt
  rw [toNat_statusWord]
  omega

theorem statusWord_dirty : (statusWord len dirty).getLsbD 13 = dirty := by
  have hlen := len.isLt
  rw [BitVec.getLsbD, Nat.testBit_eq_decide_div_mod_eq, toNat_statusWord]
  cases dirty with
  | true => rw [decide_eq_true_eq, Bool.toNat_true]; omega
  | false => rw [decide_eq_false_iff_not, Bool.toNat_false]; omega

theorem statusWord_nsec : ((statusWord len dirty).extractLsb' 14 6).toNat = nsec len.toNat := by
  have hlen := len.isLt
  have hdirty := Bool.toNat_le dirty
  refine toNat_field (len.toNat / 16) (2 ^ 13 * dirty.toNat + len.toNat) ?_ (by omega)
    ((nsec_le _).trans_lt (by decide))
  rw [toNat_statusWord]
  omega

/-- What stands below the number of blocks. -/
theorem statusWord_low_lt :
    2 ^ 14 * nsec len.toNat + (2 ^ 13 * dirty.toNat + len.toNat) < 2 ^ 20 := by
  have hlen := len.isLt
  have hsec := nsec_le len.toNat
  have hdirty := Bool.toNat_le dirty
  omega

theorem statusWord_nblocks : ((statusWord len dirty).extractLsb' 20 9).toNat = len.toNat / 16 := by
  have hlen := len.isLt
  refine toNat_field 0 _ ?_ (statusWord_low_lt len dirty) (by omega)
  rw [toNat_statusWord, Nat.mul_zero, Nat.zero_add]

theorem statusWord_high : (statusWord len dirty).extractLsb' 29 3 = 0 := by
  have hlen := len.isLt
  have hlow := statusWord_low_lt len dirty
  exact field_eq_zero (by rw [toNat_statusWord]; omega)

end statusWord

/-- Settles O42: the row of RDSTAT, the framing check, and the fields of the status word. -/
theorem rdstatFollowsRule : Obligations.RdstatFollowsRule := by
  refine ⟨answersIllegal_of_field (r := headerTable[9]) (List.getElem_mem _) (by decide) (by decide)
    (by decide), fun s => ⟨fun hp => ?_, fun hp => ?_, fun hp hl hc => ?_⟩⟩
  · exact checkFrame_of_length_ne (i := .rdstat) (mt List.length_eq_zero_iff.1 hp) _
  · exact ⟨_, exec_of_effect ⟨hp, rfl⟩, statusWord_len _ _, statusWord_dirty _ _,
      statusWord_nsec _ _, statusWord_nblocks _ _, statusWord_high _ _⟩
  · exact ⟨hc.dirty_loaded hl, exec_rdstat_of_unloaded hp hl (hc.dirty_loaded hl)⟩

/-! ### The address of a row -/

/-- An RDROW answered with `OK` gives the sector and block of a legal address, and leaves the block
to the next command (spec/44_addressing.md R199). -/
theorem legalAt_of_rdrow {s t : State} {row : BitVec 16} {r : Response} (hc : s.Coherent)
    (h : exec (.rdrow row) s = .next t) (hr : t.outbox = s.outbox ++ [r]) (h0 : r.status = 0) :
    LegalAt t (r.result.extractLsb' 6 6) (r.result.extractLsb' 2 4) := by
  obtain ⟨-, -, r', hr', ⟨-, -, hl, hrow, rfl⟩ | ⟨e, -, -, he, -⟩⟩ := exec_response h
  · obtain rfl := response_unique hr rfl
    obtain ⟨hsec, hblk, -⟩ := addr_legal hc.legalLen hrow
    obtain ⟨hs, hb⟩ := lt_of_legal_block hsec hblk
    refine ⟨hl, ?_, ?_⟩
    · rwa [rowWord_sector hs hb]
    · rwa [rowWord_sector hs hb, rowWord_block hs hb]
  · exact absurd (he ▸ response_unique hr hr' ▸ h0) (code_ne_zero e)

/-- `i` is answered in `t`, and not with `ERR_ADDRESS`. -/
def AnsweredInside (i : Instr) (t : State) : Prop :=
  ∃ t' r', exec i t = .next t' ∧ t'.outbox = t.outbox ++ [r'] ∧ r'.status ≠ 3

section answeredInside
variable {t : State} (hp : t.payload = []) {sec : BitVec 6} {blk : BitVec 4}
include hp

theorem answeredInside_of_legal {i : Instr} (hc : t.Coherent) (hw : i.WellFormed)
    (hlen : i.paylen = 0) (hl : OperandsLegal t i) : AnsweredInside i t := by
  obtain ⟨t', r', hx, hr, h0, -⟩ :=
    legalCommandCompletes i t hw (by rw [hp, payloadLength_eq_paylen, hlen]; rfl) hc hl
  exact ⟨t', r', hx, hr, by rw [h0]; decide⟩

/-- A nibble inside the geometry is edited or, in the BCC byte, protected. -/
theorem answeredInside_editnib (hc : t.Coherent) (hl : LegalAt t sec blk) (nib : BitVec 5)
    (val : BitVec 4) : AnsweredInside (.editnib sec blk nib val) t := by
  by_cases hn : isBccNibble sec.toNat blk.toNat nib.toNat = true
  · exact ⟨_, _, exec_editnib_of_bcc val hp hl hn, rfl, by decide⟩
  · exact answeredInside_of_legal hp hc rfl rfl ⟨hl, mt isBccNibble_toNat_iff.2 hn⟩

/-- A condition bit inside the geometry is edited, and the reserved `pos` is illegal. -/
theorem answeredInside_editacb (hc : t.Coherent) (hl : LegalAt t sec blk) (pos : BitVec 2)
    (bit : Bool) : AnsweredInside (.editacb sec blk pos bit) t := by
  by_cases hpos : pos = 3#2
  · subst hpos
    exact ⟨_, ⟨5#4, 0#32, []⟩, rfl, rfl, by decide⟩
  · exact answeredInside_of_legal hp hc (bne_iff_ne.2 hpos) rfl hl

end answeredInside

/-- Settles O43: the address is legal in the state RDROW leaves, and each of the six commands is
answered there. -/
theorem rowAddressIsNeverAddressError : Obligations.RowAddressIsNeverAddressError := by
  intro s t row r hc _ h hr h0 i hi
  have hl := legalAt_of_rdrow hc h hr h0
  obtain ⟨hct, hp⟩ := exec_inv hc h
  obtain rfl | rfl | rfl | rfl | ⟨nib, val, rfl⟩ | ⟨pos, bit, rfl⟩ := hi
  · exact answeredInside_of_legal hp hct rfl rfl hl
  · exact answeredInside_of_legal hp hct rfl rfl hl
  · exact answeredInside_of_legal hp hct rfl rfl hl
  · exact answeredInside_of_legal hp hct rfl rfl hl
  · exact answeredInside_editnib hp hct hl nib val
  · exact answeredInside_editacb hp hct hl pos bit

end Sys2Proof.Machine
end

section
/-! The exceptions family (spec/60_exceptions.md): which status a command is answered with, and that
an error response, like an idle step, changes nothing else. -/

namespace Sys2Proof.Machine

open Sys2Proof.Spec

/-! ### Steps that run no command -/

/-- Settles O7. -/
theorem idleStepChangesNothing : Obligations.IdleStepChangesNothing := fun _ => step_idle

/-- Settles O2: a header that decodes is legal, so this one does not decode. -/
theorem illegalHeaderIsAnsweredIllegal : Obligations.IllegalHeaderIsAnsweredIllegal := by
  intro s h p rest hi hillegal
  rw [step_command hi]
  cases hd : decode h with
  | error e => rfl
  | ok i => exact absurd (legalHeader_of_decode hd) hillegal

/-! ### An error response -/

theorem code_injective : Function.Injective ErrorStatus.code := by
  intro e e'
  cases e <;> cases e' <;> decide

/-- Settles O13: the response is `ERR_ILLEGAL`, or the error of the command the header selects. -/
theorem errorResponseLeavesNoTrace : Obligations.ErrorResponseLeavesNoTrace := by
  intro s t h p rest r hi hstep hr hne
  rw [step_command hi] at hstep
  cases hd : decode h with
  | error e =>
    rw [hd] at hstep
    obtain rfl := raise_next hstep
    obtain rfl := response_unique hr rfl
    rfl
  | ok i =>
    rw [hd] at hstep
    exact exec_of_status_ne (s := takeCommand p rest s) hstep hr hne

/-- A command answered with an error status raises that error, and its row allows it
(spec/60_exceptions.md R217, R219). -/
theorem exec_eq_raise {i : Instr} {s t : State} {r : Response} {e : ErrorStatus}
    (h : exec i s = .next t) (hr : t.outbox = s.outbox ++ [r]) (hst : r.status = e.code) :
    e ∈ errorsOf i ∧ exec i s = raise e s := by
  obtain ⟨-, -, r', hr', ⟨h0, -⟩ | ⟨e', he', -, hst', rfl⟩⟩ := exec_response h
  · exact absurd (hst.symm.trans (response_unique hr hr' ▸ h0)) (code_ne_zero e)
  · obtain rfl : e = e' := code_injective (hst.symm.trans (response_unique hr hr' ▸ hst'))
    exact ⟨he', h⟩

/-- The last response of a state shows its status. -/
theorem answer_ne {st st' : BitVec 4} {r r' : Word} {q q' : List Byte} {s s' : State}
    (hst : st ≠ st') : answer st r q s ≠ answer st' r' q' s' := by
  intro h
  have hlast := congrArg List.getLast? (congrArg State.outbox h)
  rw [answer_outbox, answer_outbox, List.getLast?_concat, List.getLast?_concat] at hlast
  exact hst (congrArg Response.status (Option.some.inj hlast))

/-! ### The rows of R217 -/

theorem invalidSize_mem_errorsOf_iff {i : Instr} :
    .invalidSize ∈ errorsOf i ↔ ∃ len, i = .parse len := by
  cases i <;> simp [errorsOf]

theorem notLoaded_mem_errorsOf_iff {i : Instr} : .notLoaded ∈ errorsOf i ↔ needsImage i = true := by
  cases i <;> simp [errorsOf, needsImage]

theorem bccProtected_mem_errorsOf_iff {i : Instr} :
    .bccProtected ∈ errorsOf i ↔ ∃ sec blk nib val, i = .editnib sec blk nib val := by
  cases i <;> simp [errorsOf]

/-- A row of R217 holds the codes of the errors of the command but `ERR_ILLEGAL`, which no command
with a legal header raises. -/
theorem mayRaise_eq (i : Instr) :
    mayRaise i = ((errorsOf i).filter (· ≠ .illegal)).map ErrorStatus.code := by
  cases i <;> rfl

/-- Settles O18. -/
theorem statusIsOneTheCommandMayRaise : Obligations.StatusIsOneTheCommandMayRaise := by
  intro i s t r hw h hr
  obtain ⟨-, -, r', hr', ⟨h0, -⟩ | ⟨e, he, hill, hst, -⟩⟩ := exec_response h
  · exact .inl (response_unique hr hr' ▸ h0)
  · have hne : e ≠ .illegal := fun e0 => hill e0 hw
    rw [response_unique hr hr', hst, mayRaise_eq]
    exact .inr (List.mem_map_of_mem (List.mem_filter.2 ⟨he, decide_eq_true hne⟩))

/-! ### `ERR_FRAME` -/

/-- The framing check stands first in every command with a legal header
(spec/60_exceptions.md R218). -/
theorem exists_exec_eq_checkFrame {i : Instr} (hw : i.WellFormed) (s : State) :
    ∃ k, exec i s = checkFrame i s k := by
  cases i with
  | editacb sec blk pos bit =>
    obtain ⟨j, hj, -⟩ := posOf_of_ne (bne_iff_ne.1 hw)
    exact ⟨_, checkPos_of_some hj⟩
  | acenc slot pos bit =>
    obtain ⟨j, hj, -⟩ := posOf_of_ne (bne_iff_ne.1 hw)
    exact ⟨_, checkPos_of_some hj⟩
  | parse | serialize | editnib | rdblk | rdac | rdvbs | rdclass | rdrow | rdstat | acdec | vbchk
  | bcc => exact ⟨_, rfl⟩

/-- Settles O14. -/
theorem wrongPayloadLengthIsFrameError : Obligations.WrongPayloadLengthIsFrameError := by
  intro i s hw hp
  obtain ⟨k, hk⟩ := exists_exec_eq_checkFrame hw s
  exact hk.trans (checkFrame_of_length_ne (payloadLength_eq_paylen i ▸ hp) k)

/-! ### `ERR_INVALID_SIZE` -/

/-- PARSE of a legal size is answered `ERR_FRAME` or `OK`. -/
theorem exec_parse_ne_raise_invalidSize {len : BitVec 16}
    (hz : len.toNat = 320 ∨ len.toNat = 1024 ∨ len.toNat = 4096) (s : State) :
    exec (.parse len) s ≠ raise .invalidSize s := by
  intro h
  by_cases hp : s.payload.length = len.toNat
  · obtain ⟨u, -, -, -, -, -, -, -, hx⟩ := exec_parse_loads hp hz
    exact answer_ne (by decide) (raise_next (h.symm.trans hx))
  · have hx : exec (.parse len) s = raise .frame s := checkFrame_of_length_ne hp _
    exact answer_ne (by decide) (raise_next (hx.symm.trans h))

/-- Settles O15. -/
theorem parseOfOtherSizeIsInvalidSize : Obligations.ParseOfOtherSizeIsInvalidSize := by
  refine ⟨fun s len => exec_parse_of_size, fun i s t r h hr hst => ?_⟩
  obtain ⟨hmem, hx⟩ := exec_eq_raise (e := .invalidSize) h hr hst
  obtain ⟨len, rfl⟩ := invalidSize_mem_errorsOf_iff.1 hmem
  exact ⟨len, rfl, fun hz => exec_parse_ne_raise_invalidSize hz s hx⟩

/-! ### `ERR_NOT_LOADED` -/

/-- A command that needs no image is answered in every state. -/
theorem exec_total_of_needsImage_eq_false {i : Instr} (hn : needsImage i = false) (s : State) :
    ∃ t, exec i s = .next t := by
  cases i with
  | parse len =>
    refine checkFrame_total fun hp => ?_
    by_cases hz : len.toNat = 320 ∨ len.toNat = 1024 ∨ len.toNat = 4096
    · obtain ⟨u, -, -, -, -, -, -, -, hx⟩ := exec_parse_loads hp hz
      exact ⟨_, (checkFrame_of_length (i := .parse len) hp).symm.trans hx⟩
    · exact ⟨_, if_neg (mt (legalSize_iff _).1 hz)⟩
  | acenc => exact checkPos_total fun _ _ => checkFrame_total fun _ => ⟨_, rfl⟩
  | rdstat | acdec | vbchk | bcc => exact checkFrame_total fun _ => ⟨_, rfl⟩
  | serialize | editnib | editacb | rdblk | rdac | rdvbs | rdclass | rdrow => cases hn

/-- Settles O16: the other six commands are answered, and `ERR_NOT_LOADED` is not in their row. -/
theorem unloadedBlockAnswersNotLoaded : Obligations.UnloadedBlockAnswersNotLoaded := by
  refine fun i s hw hp hl =>
    ⟨exec_of_unloaded hw (hp.trans (payloadLength_eq_paylen i)) hl, fun hn => ?_⟩
  obtain ⟨t, ht⟩ := exec_total_of_needsImage_eq_false hn s
  obtain ⟨-, -, r, hr, -⟩ := exec_response ht
  refine ⟨t, r, ht, hr, fun hst => ?_⟩
  have hmem := (exec_eq_raise (e := .notLoaded) ht hr hst).1
  exact absurd (notLoaded_mem_errorsOf_iff.1 hmem) (hn ▸ Bool.false_ne_true)

/-! ### `ERR_PROTECTED` -/

/-- EDITNIB of another nibble is answered by one of the checks before it, or `OK`. -/
theorem exec_editnib_ne_raise_bccProtected {sec : BitVec 6} {blk : BitVec 4} {nib : BitVec 5}
    (hn : ¬ isBccNibble sec.toNat blk.toNat nib.toNat = true) (val : BitVec 4) (s : State) :
    exec (.editnib sec blk nib val) s ≠ raise .bccProtected s := by
  intro h
  simp only [exec, execEditnib, if_neg hn] at h
  obtain ht | ⟨-, h⟩ := checkFrame_next h
  · exact answer_ne (by decide) ht
  obtain ht | ht | ⟨-, h⟩ := checkImage_next h
  · exact answer_ne (by decide) ht
  · exact answer_ne (by decide) ht
  obtain ⟨img, -, h⟩ := needValue_next h
  obtain ⟨u, -, h⟩ := needValue_next h
  exact answer_ne (by decide) (respond_next h)

/-- Settles O17. -/
theorem onlyBccNibblesAreProtected : Obligations.OnlyBccNibblesAreProtected := by
  refine ⟨fun s nib val hp hl hn => ?_, fun i s t r h hr hst => ?_⟩
  · exact exec_editnib_of_bcc val hp hl (isBccNibble_toNat_iff.2 ⟨rfl, rfl, hn⟩)
  · obtain ⟨hmem, hx⟩ := exec_eq_raise (e := .bccProtected) h hr hst
    obtain ⟨sec, blk, nib, val, rfl⟩ := bccProtected_mem_errorsOf_iff.1 hmem
    have hbcc : isBccNibble sec.toNat blk.toNat nib.toNat = true := by
      by_contra hn
      exact exec_editnib_ne_raise_bccProtected hn val s hx
    obtain ⟨rfl, rfl, hn⟩ := isBccNibble_toNat_iff.1 hbcc
    exact ⟨nib, val, hn, rfl⟩

end Sys2Proof.Machine
end
